-- ==== Sys2Proof/Word.lean ====
section
/-! DEFINITION. The word types of the SC8 core (10_state.md R42). -/

namespace Sys2Proof

/-- A register value, memory cell, operand byte or opcode byte: unsigned, 0..255 (00_scope.md R9, 10_state.md R21). -/
abbrev Byte := BitVec 8

/-- The program counter: `PC_BITS` = 9 bits, so that 256 ("ran off the end") is representable (10_state.md R30). -/
abbrev Pc := BitVec 9

/-- The index of a general register, 0..7 (10_state.md R20). -/
abbrev RegIdx := Fin 8

end Sys2Proof
end

