-- ==== Sys2Proof/Syntax.lean ====
section
/-! DEFINITION. The 13 instructions (30_encoding.md R86), one constructor per row of spec/opcode_table.json. -/

namespace Sys2Proof

/-- An instruction with its operand BYTES as fetched. A register operand is a whole byte, because a byte above 7
is decoded and then executes as the InvalidRegister fault (30_encoding.md R84, R96; DEDUCED, log 17, safe). -/
inductive Instr where
  /-- LDI reg, imm (R130). -/
  | ldi (opA imm : Byte)
  /-- PRN reg (R131). -/
  | prn (opA : Byte)
  /-- HLT (R132). -/
  | hlt
  /-- MUL regA, regB (R141). -/
  | mul (opA opB : Byte)
  /-- ADD regA, regB (R142). -/
  | add (opA opB : Byte)
  /-- CMP regA, regB (R143). -/
  | cmp (opA opB : Byte)
  /-- PUSH reg (R151). -/
  | push (opA : Byte)
  /-- POP reg (R152). -/
  | pop (opA : Byte)
  /-- CALL reg (R161). -/
  | call (opA : Byte)
  /-- RET (R162). -/
  | ret
  /-- JMP reg (R163). -/
  | jmp (opA : Byte)
  /-- JEQ reg (R164). -/
  | jeq (opA : Byte)
  /-- JNE reg (R165). -/
  | jne (opA : Byte)
  deriving DecidableEq, Repr

end Sys2Proof
end

