-- ==== Sys2Proof/WellFormed.lean ====
section
/-! DEFINITION. Which instructions name only registers that exist (30_encoding.md R84, R95). -/

namespace Sys2Proof

/-- The register operand bytes the instruction's format declares, operand A before operand B
(30_encoding.md R81, R84). LDI's second operand is an immediate, not a register (R85). -/
def Instr.regOperands : Instr → List Byte
  | .ldi opA _ => [opA]
  | .prn opA => [opA]
  | .hlt => []
  | .mul opA opB => [opA, opB]
  | .add opA opB => [opA, opB]
  | .cmp opA opB => [opA, opB]
  | .push opA => [opA]
  | .pop opA => [opA]
  | .call opA => [opA]
  | .ret => []
  | .jmp opA => [opA]
  | .jeq opA => [opA]
  | .jne opA => [opA]

/-- Every register operand byte is 0..7: what the encoding procedure of 30_encoding.md R95 can emit. -/
def Instr.wf (i : Instr) : Bool :=
  i.regOperands.all fun b => b.toNat ≤ 7

end Sys2Proof
end

