-- ==== Sys2Proof/Decode.lean ====
section
/-! DEFINITION. The decoder, total on any bytes, and the encoder (30_encoding.md). -/

namespace Sys2Proof

/-- Why bytes are no instruction. -/
inductive DecodeError where
  /-- The opcode byte is not in the instruction table (30_encoding.md R88). -/
  | illegalOpcode (op : Byte)
  /-- A byte sequence ends before the instruction does; only `decodeBytes` says so, since the machine's fetch always
  supplies three bytes (DESIGN CHOICE, log 18, safe). -/
  | truncated
  deriving DecidableEq, Repr

/-- A row of the instruction table: the whole opcode byte that is matched (30_encoding.md R82), and the instruction it
makes of the two candidate operand bytes, of which unused ones are ignored (R87). -/
structure OpcodeRow where
  opcode : Byte
  build : Byte → Byte → Instr

/-- The instruction table `OPCODES` of 30_encoding.md R86, in its order.
UNVERIFIED, log 1: the byte values are the spec's decision D1. Unsafe. -/
def opcodeTable : List OpcodeRow :=
  [ ⟨0b10000010, fun opA opB => .ldi opA opB⟩,
    ⟨0b01000111, fun opA _ => .prn opA⟩,
    ⟨0b00000001, fun _ _ => .hlt⟩,
    ⟨0b10100010, fun opA opB => .mul opA opB⟩,
    ⟨0b10100000, fun opA opB => .add opA opB⟩,
    ⟨0b10100111, fun opA opB => .cmp opA opB⟩,
    ⟨0b01000101, fun opA _ => .push opA⟩,
    ⟨0b01000110, fun opA _ => .pop opA⟩,
    ⟨0b01010000, fun opA _ => .call opA⟩,
    ⟨0b00010001, fun _ _ => .ret⟩,
    ⟨0b01010100, fun opA _ => .jmp opA⟩,
    ⟨0b01010101, fun opA _ => .jeq opA⟩,
    ⟨0b01010110, fun opA _ => .jne opA⟩ ]

/-- The decoder of the machine: three bytes in, an instruction or a rejection by name out
(30_encoding.md R82, R88, R96). -/
def decode (op opA opB : Byte) : Except DecodeError Instr :=
  match opcodeTable.find? fun row => row.opcode == op with
  | some row => .ok (row.build opA opB)
  | none => .error (.illegalOpcode op)

/-- `size = opcode[7:6] + 1`, the instruction's length in bytes (30_encoding.md R82, R90). -/
def opcodeSize (op : Byte) : Nat :=
  (op.extractLsb' 6 2).toNat + 1

/-- The decoder over a byte sequence: the instruction at its front and the bytes after it. It asks only for the bytes
the instruction's length names (30_encoding.md R80, R90). -/
def decodeBytes : List Byte → Except DecodeError (Instr × List Byte)
  | [] => .error .truncated
  | op :: rest =>
    match decode op (rest.getD 0 0) (rest.getD 1 0) with
    | .error e => .error e
    | .ok i =>
      if rest.length + 1 < opcodeSize op then .error .truncated
      else .ok (i, rest.drop (opcodeSize op - 1))

/-- The opcode byte of each instruction, from the table of 30_encoding.md R86 (log 1). -/
def Instr.opcode : Instr → Byte
  | .ldi _ _ => 0x82
  | .prn _ => 0x47
  | .hlt => 0x01
  | .mul _ _ => 0xA2
  | .add _ _ => 0xA0
  | .cmp _ _ => 0xA7
  | .push _ => 0x45
  | .pop _ => 0x46
  | .call _ => 0x50
  | .ret => 0x11
  | .jmp _ => 0x54
  | .jeq _ => 0x55
  | .jne _ => 0x56

/-- The operand bytes that follow the opcode byte, operand A first (30_encoding.md R81). -/
def Instr.operandBytes : Instr → List Byte
  | .ldi opA imm => [opA, imm]
  | .prn opA => [opA]
  | .hlt => []
  | .mul opA opB => [opA, opB]
  | .add opA opB => [opA, opB]
  | .cmp opA opB => [opA, opB]
  | .push opA => [opA]
  | .pop opA => [opA]
  | .call opA => [opA]
  | .ret => []
  | .jmp opA => [opA]
  | .jeq opA => [opA]
  | .jne opA => [opA]

/-- The encoder: the procedure of 30_encoding.md R95. -/
def encode (i : Instr) : List Byte :=
  i.opcode :: i.operandBytes

/-- The size the dispatcher gives the handler (40_dispatch_cycle.md R112). -/
def Instr.size (i : Instr) : Nat :=
  opcodeSize i.opcode

/-- Byte `k` of a table word of `nbits` bits: bit 0 is the least significant bit of the first byte, and every bit from
`nbits` on is 0. -/
def tableWordByte (nbits w k : Nat) : Byte :=
  BitVec.ofNat 8 (w % 2 ^ nbits / 2 ^ (8 * k))

/-- The instruction the decoder reads from a word numbered as spec/opcode_table.json numbers it. -/
def decodeTableWord (nbits w : Nat) : Option Instr :=
  match decode (tableWordByte nbits w 0) (tableWordByte nbits w 1) (tableWordByte nbits w 2) with
  | .ok i => some i
  | .error _ => none

end Sys2Proof
end

