-- ==== Sys2Proof/Config.lean ====
section
/-! DEFINITION. The parameters of 00_scope.md R6 and R7 that are not encodings: what is fixed for the machine. -/

namespace Sys2Proof.Config

/-- `MEM_SIZE`: the number of memory cells, addresses 0 to 255 (00_scope.md R6). -/
def memSize : Nat := 256

/-- `SP_INDEX`: the register used as stack pointer (00_scope.md R6, 10_state.md R22). -/
def spIndex : RegIdx := 7

/-- `PC_RESET` (00_scope.md R6). -/
def pcReset : Pc := 0

/-- `LOAD_BASE`: the address of the first program byte (00_scope.md R6). -/
def loadBase : Nat := 0

/-- `MEM_FILL`: what a cell that the load does not write holds (00_scope.md R7, 20_memory.md R67).
UNVERIFIED, log 4: the spec's decision D9. Unsafe. -/
def memFill : Byte := 0x00

/-- The reset parameters a claim may quantify over (00_scope.md R7). -/
structure ResetParams where
  /-- `SP_RESET`: R7 after reset. -/
  spReset : Byte
  /-- `R_RESET`: R0 to R6 after reset. -/
  rReset : Byte
  /-- `FL_RESET`: `FL` after reset. -/
  flReset : Byte
  deriving DecidableEq, Repr

/-- The default reset parameters (00_scope.md R7, 10_state.md R40).
UNVERIFIED, log 3: the spec's decisions D3, D8 and D7. Unsafe. -/
def resetDefaults : ResetParams where
  spReset := 0xF4
  rReset := 0x00
  flReset := 0x00

end Sys2Proof.Config
end

