-- ==== Sys2Proof/Machine/State.lean ====
section
/-! DEFINITION. The whole state of the core (10_state.md R42), the reasons a step can stop, and the state after reset. -/

namespace Sys2Proof.Machine

/-- `RUNSTATE` (10_state.md R31). -/
inductive RunState where
  /-- The core takes steps. -/
  | running
  /-- HLT was executed; terminal until reset. -/
  | halted
  /-- A fault was raised; terminal until reset. -/
  | faulted
  deriving DecidableEq, Repr

/-- The kind and information of a fault the core raises, `K(info)` (60_exceptions.md R180, 10_state.md R32). -/
inductive FaultCause where
  /-- InvalidInstruction, raised by decode (60_exceptions.md R181). -/
  | invalidInstruction (opcode : Byte)
  /-- OutOfBoundsAccess, raised by fetch, PUSH, CALL, POP, RET and the load; the address is an integer, -1 or 256
  (60_exceptions.md R182). -/
  | outOfBoundsAccess (addr : Int)
  /-- InvalidRegister, raised by a register operand byte above 7 (60_exceptions.md R183). -/
  | invalidRegister (operand : Byte)
  /-- UnsupportedALUOperation, raised by nothing (60_exceptions.md R184, 42_alu_compare.md R146; log 16). -/
  | unsupportedAluOperation
  deriving DecidableEq, Repr

/-- What `FAULT` holds of a raised fault: `K(info, pc)` (10_state.md R32). -/
structure FaultRecord where
  cause : FaultCause
  /-- The address of the faulting instruction's opcode byte (00_scope.md R13). -/
  pc : Pc
  deriving DecidableEq, Repr

/-- `MEM` as the cells that differ from `MEM_FILL`, in one canonical form: addresses strictly rising, all below 256,
no cell holding `MEM_FILL` (`Memory.wf`). An address not listed reads as `Config.memFill`. -/
abbrev Memory := List Host.Cell

/-- The state of the core (10_state.md, its opening paragraph and R42). -/
structure State where
  /-- The general registers `x[0..7]` (R20, R21); `x[7]` is the stack pointer (R22). -/
  regs : Vector Byte 8
  /-- The flags register `FL` (R25). -/
  fl : Byte
  /-- The program counter (R28, R30). -/
  pc : Pc
  /-- `RUNSTATE` (R31). -/
  runState : RunState
  /-- `FAULT` (R32). -/
  fault : Option FaultRecord
  /-- `MEM[0..255]` (R33). -/
  mem : Memory
  /-- `OUT`, the values PRN has emitted since reset, oldest first (R34). -/
  out : List Byte
  deriving DecidableEq, Repr

/-- The reasons `step` answers no state: the core has no step (40_dispatch_cycle.md R110). A fault the core RAISES is
none of these: it is a next state in FAULTED (`State.raise`). -/
inductive Fault where
  /-- Answered by `step`, and by no instruction, at a state in HALTED: there is no step until reset. Safe: no state is
  made up (log 13). -/
  | halted
  /-- Answered by `step`, and by no instruction, at a state in FAULTED: there is no step until reset. Safe: no state is
  made up (log 13). -/
  | faulted
  deriving DecidableEq, Repr

/-- The reasons an instruction has no meaning. -/
inductive Refusal where
  /-- For an arm of `exec` whose instruction has no meaning yet. No arm answers it: every instruction is modelled.
  Safe. -/
  | notModelled (mnemonic : String)
  deriving DecidableEq, Repr

/-- The state after reset for given reset parameters (10_state.md R40, 70_reset_and_hazards.md R210, R213). -/
def State.resetWith (p : Config.ResetParams) : State where
  regs := #v[p.rReset, p.rReset, p.rReset, p.rReset, p.rReset, p.rReset, p.rReset, p.spReset]
  fl := p.flReset
  pc := Config.pcReset
  runState := .running
  fault := none
  mem := []
  out := []

/-- The machine right after reset, before the load (10_state.md R40, 70_reset_and_hazards.md R210; logs 3 and 4). -/
def State.reset : State :=
  State.resetWith Config.resetDefaults

end Sys2Proof.Machine
end

