-- ==== Sys2Proof/Machine/Ops.lean ====
section
/-! DEFINITION. The named operations over memory, registers and the stack pointer, raising a fault, and how a handler's
result ends the step (00_scope.md R10, R11, R13; 40_dispatch_cycle.md R113 to R115). -/

namespace Sys2Proof.Machine

/-- The cells from `lo` on are in canonical form. -/
def Memory.wfFrom (lo : Nat) : Memory → Bool
  | [] => true
  | (k, v) :: m => decide (lo ≤ k) && decide (k < Config.memSize) && v != Config.memFill && Memory.wfFrom (k + 1) m

/-- The canonical form: addresses strictly rising, each below `MEM_SIZE`, no cell equal to `MEM_FILL`. -/
def Memory.wf (m : Memory) : Bool :=
  Memory.wfFrom 0 m

/-- `MEM[a]` (20_memory.md R57, R67). -/
def Memory.read : Memory → Nat → Byte
  | [], _ => Config.memFill
  | (k, v) :: m, a => if k = a then v else Memory.read m a

/-- `MEM[a] <- v`, keeping the canonical form (20_memory.md R57). -/
def Memory.write : Memory → Nat → Byte → Memory
  | [], a, v => if v = Config.memFill then [] else [(a, v)]
  | (k, w) :: m, a, v =>
    if a < k then
      if v = Config.memFill then (k, w) :: m else (a, v) :: (k, w) :: m
    else if a = k then
      if v = Config.memFill then m else (a, v) :: m
    else
      (k, w) :: Memory.write m a v

/-- `MemRead(addr, 1)` (00_scope.md R11, 20_memory.md R52): an address outside 0..255 raises, it never wraps. -/
def State.memRead (s : State) (addr : Int) : Except FaultCause Byte :=
  if 0 ≤ addr ∧ addr ≤ 255 then .ok (s.mem.read addr.toNat) else .error (.outOfBoundsAccess addr)

/-- `MemWrite(addr, 1, v)` (00_scope.md R11, 20_memory.md R52). -/
def State.memWrite (s : State) (addr : Int) (v : Byte) : Except FaultCause State :=
  if 0 ≤ addr ∧ addr ≤ 255 then .ok { s with mem := s.mem.write addr.toNat v }
  else .error (.outOfBoundsAccess addr)

/-- `x[i]` (00_scope.md R10). -/
def State.reg (s : State) (i : RegIdx) : Byte :=
  s.regs[i]

/-- `x[i] <- v` (00_scope.md R10); no register is hard-wired (10_state.md R23). -/
def State.setReg (s : State) (i : RegIdx) (v : Byte) : State :=
  { s with regs := s.regs.set i v }

/-- `SP`, another spelling of `x[7]` (00_scope.md R10, 10_state.md R22). -/
def State.sp (s : State) : Byte :=
  s.reg Config.spIndex

/-- `SP <- v`. -/
def State.setSp (s : State) (v : Byte) : State :=
  s.setReg Config.spIndex v

/-- `FL <- v`: the whole byte (10_state.md R25). -/
def State.setFl (s : State) (v : Byte) : State :=
  { s with fl := v }

/-- `pc <- target`, an 8-bit value zero-extended to nine bits (44_control_transfer.md R160 a). -/
def State.jumpTo (s : State) (target : Byte) : State :=
  { s with pc := target.setWidth 9 }

/-- One `write(v)` on the output interface: `OUT <- OUT ++ [v]` (10_state.md R34, R38). -/
def State.emit (s : State) (v : Byte) : State :=
  { s with out := s.out ++ [v] }

/-- The check and decrement of PUSH and CALL: at `SP` = 0 it raises OutOfBoundsAccess(-1), otherwise
`SP <- SP - 1` (43_stack.md R150; log 9). -/
def State.decSp (s : State) : Except FaultCause State :=
  if s.sp = 0 then .error (.outOfBoundsAccess (-1)) else .ok (s.setSp (s.sp - 1))

/-- The check and increment of POP and RET: at `SP` = 255 it raises OutOfBoundsAccess(256), otherwise
`SP <- SP + 1` (43_stack.md R150; log 9). -/
def State.incSp (s : State) : Except FaultCause State :=
  if s.sp = 255 then .error (.outOfBoundsAccess 256) else .ok (s.setSp (s.sp + 1))

/-- Taking a fault, `raise K(info)`: `RUNSTATE <- FAULTED`, `FAULT <- K(info, pc)`, and nothing else; control goes
nowhere (00_scope.md R13, 60_exceptions.md R189, R190; log 10). There is no return from a fault: only reset leaves
FAULTED (60_exceptions.md R191), so `State.reset` is what stands beside this operation. -/
def State.raise (s : State) (k : FaultCause) : State :=
  { s with runState := .faulted, fault := some { cause := k, pc := s.pc } }

/-- What a handler yields besides its writes (40_dispatch_cycle.md R113). -/
inductive Yield where
  /-- The number of bytes to advance `pc` by, 0 if the handler set `pc` itself. -/
  | inc (n : Nat)
  /-- HLT's answer. -/
  | halt
  deriving DecidableEq, Repr

/-- A handler's result: its state and what it yields, or the fault it raises. -/
abbrev Result := Except FaultCause (State × Yield)

/-- Parts 4 and 5 of the step (40_dispatch_cycle.md R114, R115, R120). A raise discards the handler's writes: the fault
is taken at `s`, the state the step began in (00_scope.md R13). -/
def finish (s : State) : Result → Host.Outcome State Fault Refusal
  | .error k => .next (s.raise k)
  | .ok (s', .inc n) => .next { s' with pc := s'.pc + BitVec.ofNat 9 n }
  | .ok (s', .halt) => .next { s' with runState := .halted }

/-- The code of a fault for a status port (60_exceptions.md R180; the numbers are the spec's decision D14, log 10). -/
def FaultCause.code : FaultCause → Nat
  | .invalidInstruction _ => 1
  | .outOfBoundsAccess _ => 2
  | .invalidRegister _ => 3
  | .unsupportedAluOperation => 4

/-- The status interface's fault code, 0 while there is no fault (10_state.md R37, 60_exceptions.md R180). -/
def State.faultCode (s : State) : Nat :=
  match s.fault with
  | none => 0
  | some f => f.cause.code

end Sys2Proof.Machine
end

