-- ==== Sys2Proof/Machine/Flags.lean ====
section
/-! DEFINITION. The flags byte `FL`: what CMP writes and what JEQ and JNE read (10_state.md R25 to R27). -/

namespace Sys2Proof.Machine

/-- `FL` with only `E` (Equal) set: bit 0 (10_state.md R25). -/
def flEqual : Byte := 0b00000001

/-- `FL` with only `G` (Greater-than) set: bit 1. -/
def flGreater : Byte := 0b00000010

/-- `FL` with only `L` (Less-than) set: bit 2. -/
def flLess : Byte := 0b00000100

/-- The comparator of CMP: the whole new `FL` for left value `p` and right value `q`, compared as unsigned numbers
(42_alu_compare.md R143, R145; log 8). -/
def compareFlags (p q : Byte) : Byte :=
  if p.toNat = q.toNat then flEqual
  else if p.toNat > q.toNat then flGreater
  else flLess

/-- `FL[0:0] == 1`: the only bit of `FL` an instruction reads (10_state.md R26). -/
def State.equalFlag (s : State) : Bool :=
  s.fl.getLsbD 0

end Sys2Proof.Machine
end

