-- ==== Sys2Proof/Machine/Operands.lean ====
section
/-! DEFINITION. The operand forms: a register operand; an immediate is its byte as it stands (30_encoding.md R84, R85). -/

namespace Sys2Proof.Machine

/-- `Reg(b)`: register `b` if `b` is 0..7, otherwise InvalidRegister(b) (00_scope.md R12, 30_encoding.md R84;
log 6). -/
def regOperand (b : Byte) : Except FaultCause RegIdx :=
  if h : b.toNat < 8 then .ok ⟨b.toNat, h⟩ else .error (.invalidRegister b)

end Sys2Proof.Machine
end

