-- ==== Sys2Proof/Machine/Alu.lean ====
section
/-! DEFINITION. The ALU, MUL, ADD and CMP (42_alu_compare.md). -/

namespace Sys2Proof.Machine

/-- The ALU's operation tags (R140); there is no other, so UnsupportedALUOperation cannot be raised (R146; log 16). -/
inductive AluOp where
  | add
  | mul
  deriving DecidableEq, Repr

/-- The ALU: the exact integer sum or product, of which the low eight bits are kept (R140, R144; log 2). -/
def alu (op : AluOp) (p q : Byte) : Byte :=
  match op with
  | .add => BitVec.ofNat 8 (p.toNat + q.toNat)
  | .mul => BitVec.ofNat 8 (p.toNat * q.toNat)

/-- MUL regA, regB: `x[a] <- alu(MUL, x[a], x[b])` (R141). -/
def execMul (opA opB : Byte) (s : State) : Host.Outcome State Fault Refusal :=
  finish s do
    let a ← regOperand opA
    let b ← regOperand opB
    return (s.setReg a (alu .mul (s.reg a) (s.reg b)), .inc (Instr.mul opA opB).size)

/-- ADD regA, regB: `x[a] <- alu(ADD, x[a], x[b])` (R142). -/
def execAdd (opA opB : Byte) (s : State) : Host.Outcome State Fault Refusal :=
  finish s do
    let a ← regOperand opA
    let b ← regOperand opB
    return (s.setReg a (alu .add (s.reg a) (s.reg b)), .inc (Instr.add opA opB).size)

/-- CMP regA, regB: the whole of `FL` from the comparator (R143, R145). -/
def execCmp (opA opB : Byte) (s : State) : Host.Outcome State Fault Refusal :=
  finish s do
    let a ← regOperand opA
    let b ← regOperand opB
    return (s.setFl (compareFlags (s.reg a) (s.reg b)), .inc (Instr.cmp opA opB).size)

end Sys2Proof.Machine
end

