-- ==== Sys2Proof/Machine/Control.lean ====
section
/-! DEFINITION. CALL, RET, JMP, JEQ, JNE (44_control_transfer.md). -/

namespace Sys2Proof.Machine

/-- The byte CALL pushes: `pc + size`, the address of the instruction after it. At every `pc` a CALL can be fetched
from (at most 253) it fits a byte (R161; log 14 says what happens at other values). -/
def returnAddress (pc : Pc) (size : Nat) : Byte :=
  BitVec.ofNat 8 (pc.toNat + size)

/-- CALL reg: `SP <- SP - 1; MEM[SP] <- pc + 2; pc <- x[a]`, with `x[a]` read after the decrement (R161; log 11). -/
def execCall (opA : Byte) (s : State) : Host.Outcome State Fault Refusal :=
  finish s do
    let a ← regOperand opA
    let s₁ ← s.decSp
    let s₂ ← s₁.memWrite s₁.sp.toNat (returnAddress s.pc (Instr.call opA).size)
    return (s₂.jumpTo (s₂.reg a), .inc 0)

/-- RET: `pc <- MEM[SP]; SP <- SP + 1` (R162). -/
def execRet (s : State) : Host.Outcome State Fault Refusal :=
  finish s do
    let t ← s.memRead s.sp.toNat
    let s₁ ← s.incSp
    return (s₁.jumpTo t, .inc 0)

/-- JMP reg: `pc <- x[a]` (R163). -/
def execJmp (opA : Byte) (s : State) : Host.Outcome State Fault Refusal :=
  finish s do
    let a ← regOperand opA
    return (s.jumpTo (s.reg a), .inc 0)

/-- JEQ reg: jump if `E` is set; the operand is checked whether or not the jump is taken (R164; log 6). -/
def execJeq (opA : Byte) (s : State) : Host.Outcome State Fault Refusal :=
  finish s do
    let a ← regOperand opA
    if s.equalFlag then return (s.jumpTo (s.reg a), .inc 0)
    else return (s, .inc (Instr.jeq opA).size)

/-- JNE reg: jump if `E` is clear; the operand is checked whether or not the jump is taken (R165; log 6). -/
def execJne (opA : Byte) (s : State) : Host.Outcome State Fault Refusal :=
  finish s do
    let a ← regOperand opA
    if s.equalFlag then return (s, .inc (Instr.jne opA).size)
    else return (s.jumpTo (s.reg a), .inc 0)

end Sys2Proof.Machine
end

