-- ==== Sys2Proof/Machine/LoadPrintHalt.lean ====
section
/-! DEFINITION. LDI, PRN, HLT (41_load_print_halt.md). -/

namespace Sys2Proof.Machine

/-- LDI reg, imm: `x[a] <- imm` (R130). -/
def execLdi (opA imm : Byte) (s : State) : Host.Outcome State Fault Refusal :=
  finish s do
    let a ← regOperand opA
    return (s.setReg a imm, .inc (Instr.ldi opA imm).size)

/-- PRN reg: one `write(x[a])` on the output interface (R131). -/
def execPrn (opA : Byte) (s : State) : Host.Outcome State Fault Refusal :=
  finish s do
    let a ← regOperand opA
    return (s.emit (s.reg a), .inc (Instr.prn opA).size)

/-- HLT: the dispatcher's run state becomes HALTED and `pc` stays (R132; log 7). -/
def execHlt (s : State) : Host.Outcome State Fault Refusal :=
  finish s (.ok (s, .halt))

end Sys2Proof.Machine
end

