-- ==== Sys2Proof/Machine/Stack.lean ====
section
/-! DEFINITION. PUSH and POP (43_stack.md). -/

namespace Sys2Proof.Machine

/-- PUSH reg: `SP <- SP - 1; MEM[SP] <- x[a]`, with `x[a]` read after the decrement (R151; log 11). -/
def execPush (opA : Byte) (s : State) : Host.Outcome State Fault Refusal :=
  finish s do
    let a ← regOperand opA
    let s₁ ← s.decSp
    let s₂ ← s₁.memWrite s₁.sp.toNat (s₁.reg a)
    return (s₂, .inc (Instr.push opA).size)

/-- POP reg: `x[a] <- MEM[SP]; SP <- SP + 1`, with `SP` read again after the write to `x[a]` (R152; log 11). -/
def execPop (opA : Byte) (s : State) : Host.Outcome State Fault Refusal :=
  finish s do
    let a ← regOperand opA
    let v ← s.memRead s.sp.toNat
    let s₁ ← (s.setReg a v).incSp
    return (s₁, .inc (Instr.pop opA).size)

end Sys2Proof.Machine
end

