-- ==== Sys2Proof/Machine/Dispatch.lean ====
section
/-! DEFINITION. The instruction table's handlers (30_encoding.md R86, 40_dispatch_cycle.md R113 to R115). -/

namespace Sys2Proof.Machine

def exec (i : Instr) (s : State) : Host.Outcome State Fault Refusal :=
  match i with
  | .ldi opA imm => Sys2Proof.Machine.execLdi opA imm s
  | .prn opA => Sys2Proof.Machine.execPrn opA s
  | .hlt => Sys2Proof.Machine.execHlt s
  | .mul opA opB => Sys2Proof.Machine.execMul opA opB s
  | .add opA opB => Sys2Proof.Machine.execAdd opA opB s
  | .cmp opA opB => Sys2Proof.Machine.execCmp opA opB s
  | .push opA => Sys2Proof.Machine.execPush opA s
  | .pop opA => Sys2Proof.Machine.execPop opA s
  | .call opA => Sys2Proof.Machine.execCall opA s
  | .ret => Sys2Proof.Machine.execRet s
  | .jmp opA => Sys2Proof.Machine.execJmp opA s
  | .jeq opA => Sys2Proof.Machine.execJeq opA s
  | .jne opA => Sys2Proof.Machine.execJne opA s

end Sys2Proof.Machine
end

