-- ==== Sys2Proof/Machine/Fetch.lean ====
section
/-! DEFINITION. Fetching an instruction's bytes (40_dispatch_cycle.md R111). -/

namespace Sys2Proof.Machine

/-- The three reads at `pc`, `pc+1`, `pc+2`, in this order and made for every instruction whatever its length, each
bounds-checked (40_dispatch_cycle.md R111, 30_encoding.md R87; log 5). -/
def fetch (s : State) : Except FaultCause (Byte × Byte × Byte) := do
  let op ← s.memRead s.pc.toNat
  let opA ← s.memRead (s.pc.toNat + 1)
  let opB ← s.memRead (s.pc.toNat + 2)
  return (op, opA, opB)

end Sys2Proof.Machine
end

