-- ==== Sys2Proof/Machine/Load.lean ====
section
/-! DEFINITION. The load interface: how the host places a program before the run (20_memory.md R66, 10_state.md R35). -/

namespace Sys2Proof.Machine

/-- The bytes go to consecutive cells from `base` on. -/
def Memory.load (m : Memory) (base : Nat) : List Byte → Memory
  | [] => m
  | b :: bs => Memory.load (m.write base b) (base + 1) bs

/-- `Memory.load(bytes, startAddress=0)`. An image longer than 256 bytes is refused as a whole: memory as it was,
FAULTED with OutOfBoundsAccess(256, 0) (20_memory.md R66; log 12). -/
def State.load (s : State) (image : List Byte) : State :=
  if image.length ≤ Config.memSize then { s with mem := s.mem.load Config.loadBase image }
  else { s with runState := .faulted, fault := some { cause := .outOfBoundsAccess 256, pc := 0 } }

/-- The state a program starts from: reset, then its image loaded (10_state.md R40, 70_reset_and_hazards.md R212). -/
def State.launch (image : List Byte) : State :=
  State.reset.load image

end Sys2Proof.Machine
end

