-- ==== Sys2Proof/Machine/Step.lean ====
section
/-! DEFINITION. One step of the machine, fetch, decode, execute (40_dispatch_cycle.md R110, R120), and the word-wise
placing of one instruction where the next fetch reads it. -/

namespace Sys2Proof.Machine

/-- The step. Only a RUNNING core has one (R110); a fetch or decode that raises is a next state in FAULTED (R111,
R112). -/
def step (s : State) : Host.Outcome State Fault Refusal :=
  match s.runState with
  | .halted => .fault .halted
  | .faulted => .fault .faulted
  | .running =>
    match fetch s with
    | .error k => .next (s.raise k)
    | .ok (op, opA, opB) =>
      match decode op opA opB with
      | .error _ => .next (s.raise (.invalidInstruction op))
      | .ok i => exec i s

/-- `s` with the three bytes of a table word stored at `pc`, which is how a host's load would have left them. The fetch
needs a RUNNING core and a `pc` of at most 253, so a core that is not RUNNING is made so, with no fault, and a `pc`
above 253 becomes the entry point 0 (log 12). -/
def State.withFetchWord (s : State) (nbits w : Nat) : State :=
  let pc := if s.pc.toNat ≤ 253 then s.pc else Config.pcReset
  { s with
    pc := pc
    runState := .running
    fault := if s.runState = .running then s.fault else none
    mem := s.mem.load pc.toNat [tableWordByte nbits w 0, tableWordByte nbits w 1, tableWordByte nbits w 2] }

end Sys2Proof.Machine
end

