-- ==== Sys2Proof/Safety.lean ====
section
/-! DEFINITION. What claims are stated in: reached states, the invariant of reachable states, the state a fault leaves,
and the spec's tables of faults and of register use, each written apart from the meanings. -/

namespace Sys2Proof.Machine

/-- The states of a run: the launch state of an image, and what steps lead to (40_dispatch_cycle.md R110, R118). -/
inductive Reachable (image : List Byte) : State → Prop where
  | launched : Reachable image (State.launch image)
  | stepped {s t : State} : Reachable image s → step s = .next t → Reachable image t

/-- A completed run: HALTED, and only HALTED (60_exceptions.md R192). -/
def State.completed (s : State) : Bool :=
  s.runState == .halted

/-- `s` after `raise K(info)`: two fields change and no other (00_scope.md R13, 60_exceptions.md R189, R190). -/
def State.faultedWith (s : State) (k : FaultCause) : State :=
  { s with runState := .faulted, fault := some { cause := k, pc := s.pc } }

/-- `op` is one of the 13 opcode bytes (30_encoding.md R86, R88). -/
def legalOpcode (op : Byte) : Bool :=
  opcodeTable.any fun row => row.opcode == op

/-- A fault the core can record (10_state.md R32, 20_memory.md R52, 60_exceptions.md R180 to R184). -/
def FaultCause.possible : FaultCause → Bool
  | .invalidInstruction op => !legalOpcode op
  | .outOfBoundsAccess addr => addr == -1 || addr == 256
  | .invalidRegister operand => decide (8 ≤ operand.toNat)
  | .unsupportedAluOperation => false

/-- The invariant of reachable states (10_state.md R25, R27, R30, R32, R42). -/
structure State.Inv (s : State) : Prop where
  /-- Memory is in canonical form, all cells below 256 (the model's representation of R33). -/
  memCanonical : s.mem.wf = true
  /-- `pc` is in 0..256 (R30). -/
  pcInRange : s.pc.toNat ≤ 256
  /-- `FL` is 0, 1, 2 or 4 (R27), so its bits 7 to 3 are 0 (R25). -/
  flLegal : s.fl = 0 ∨ s.fl = 1 ∨ s.fl = 2 ∨ s.fl = 4
  /-- `FAULT` is none exactly while not FAULTED (R32). -/
  faultIffFaulted : s.fault.isSome = true ↔ s.runState = .faulted
  /-- The record names the faulting instruction's `pc`, which has not moved, and a cause that can occur (R32). -/
  faultRecord : ∀ f, s.fault = some f → f.pc = s.pc ∧ f.cause.possible = true

end Sys2Proof.Machine

namespace Sys2Proof

/-- The numbers of the registers an instruction can write: the "writes" column of 10_state.md R24. -/
def Instr.written : Instr → List Byte
  | .ldi opA _ => [opA]
  | .prn _ => []
  | .hlt => []
  | .mul opA _ => [opA]
  | .add opA _ => [opA]
  | .cmp _ _ => []
  | .push _ => [7]
  | .pop opA => [opA, 7]
  | .call _ => [7]
  | .ret => [7]
  | .jmp _ => []
  | .jeq _ => []
  | .jne _ => []

/-- The numbers of the registers an instruction reads: the "reads" column of 10_state.md R24. JEQ and JNE read their
register only if taken, which `equal`, the bit `E`, decides. -/
def Instr.readRegs (equal : Bool) : Instr → List Byte
  | .ldi _ _ => []
  | .prn opA => [opA]
  | .hlt => []
  | .mul opA opB => [opA, opB]
  | .add opA opB => [opA, opB]
  | .cmp opA opB => [opA, opB]
  | .push opA => [7, opA]
  | .pop _ => [7]
  | .call opA => [7, opA]
  | .ret => [7]
  | .jmp opA => [opA]
  | .jeq opA => if equal then [opA] else []
  | .jne opA => if equal then [] else [opA]

/-- The stack-pointer fault of an instruction whose register operands are valid: the columns `S-` and `S+` of
60_exceptions.md R199, with the corner cases of 43_stack.md R152. -/
def Instr.stackFault (i : Instr) (s : Machine.State) : Option Machine.FaultCause :=
  match i with
  | .push _ => if s.sp = 0 then some (.outOfBoundsAccess (-1)) else none
  | .call _ => if s.sp = 0 then some (.outOfBoundsAccess (-1)) else none
  | .pop opA =>
    if opA = 7 then
      if s.mem.read s.sp.toNat = 255 then some (.outOfBoundsAccess 256) else none
    else
      if s.sp = 255 then some (.outOfBoundsAccess 256) else none
  | .ret => if s.sp = 255 then some (.outOfBoundsAccess 256) else none
  | .ldi _ _ => none
  | .prn _ => none
  | .hlt => none
  | .mul _ _ => none
  | .add _ _ => none
  | .cmp _ _ => none
  | .jmp _ => none
  | .jeq _ => none
  | .jne _ => none

/-- The first fault a handler raises: operand A, operand B, stack pointer (60_exceptions.md R188, R199). -/
def Instr.handlerFault (i : Instr) (s : Machine.State) : Option Machine.FaultCause :=
  match i.regOperands.find? fun b => decide (8 ≤ b.toNat) with
  | some b => some (.invalidRegister b)
  | none => i.stackFault s

end Sys2Proof

namespace Sys2Proof.Machine

/-- The fault a RUNNING core's next step raises, first failure first: fetch bounds, opcode, then the handler's
(40_dispatch_cycle.md R117, 60_exceptions.md R188; for `pc` in 0..256). -/
def State.expectedFault (s : State) : Option FaultCause :=
  if s.pc.toNat > 253 then some (.outOfBoundsAccess 256)
  else
    match decode (s.mem.read s.pc.toNat) (s.mem.read (s.pc.toNat + 1)) (s.mem.read (s.pc.toNat + 2)) with
    | .error _ => some (.invalidInstruction (s.mem.read s.pc.toNat))
    | .ok i => i.handlerFault s

end Sys2Proof.Machine
end

