-- ==== Sys2Proof/Certificates/Slice0/Obligations.lean ====
section
/-! DEFINITION. The statements for the provers. `State.faultedWith s k` is the state `raise k` leaves (Safety.lean);
`s.mem.wf` is the canonical form of memory, which every reachable state has (`StepKeepsInvariant`,
`LaunchMeetsInvariant`). A register operand byte `b` names a register when `b.toNat < 8`. -/

open Sys2Proof Sys2Proof.Machine

/-! ## Encoding -/

/-- Decoding an encoded instruction gives it back, with every operand byte at every value, from a byte sequence and from
the three bytes a fetch supplies, whatever bytes follow (30_encoding.md R95, R96, marked derived there; the opcode values are
the spec's decision D1, log 1). -/
def Obligations.DecodeInvertsEncode : Prop :=
  ∀ (i : Instr) (rest : List Byte),
    decodeBytes (encode i ++ rest) = .ok (i, rest) ∧
    decode ((encode i ++ rest).getD 0 0) ((encode i ++ rest).getD 1 0) ((encode i ++ rest).getD 2 0) = .ok i

/-- Decoded bytes have one reading: the instruction's encoding is exactly the first `op[7:6] + 1` of them
(30_encoding.md R82, R96). -/
def Obligations.EncodeInvertsDecode : Prop :=
  ∀ (op opA opB : Byte) (i : Instr), decode op opA opB = .ok i →
    encode i = [op, opA, opB].take ((op.extractLsb' 6 2).toNat + 1) ∧ i.size = (op.extractLsb' 6 2).toNat + 1

/-- 243 of the 256 opcode bytes are illegal, among them 0x00 and every byte with `cnt` = 0b11 (30_encoding.md R88;
which bytes they are rests on the spec's decision D1, log 1). -/
def Obligations.IllegalOpcodeBytesCounted : Prop :=
  (List.range 256).countP (fun n => !legalOpcode (BitVec.ofNat 8 n)) = 243 ∧
  legalOpcode 0x00 = false ∧
  ∀ op : Byte, op.extractLsb' 6 2 = 0b11 → legalOpcode op = false

/-- A word of every family, written out from 95_test_vectors.md section 2.1, decodes to its instruction (opcode values:
decision D1, log 1). -/
def Obligations.SpecWordsDecode : Prop :=
  decode 0x82 0x07 0xF4 = .ok (.ldi 7 0xF4) ∧ decode 0x47 0x00 0x01 = .ok (.prn 0) ∧
  decode 0x01 0x82 0x00 = .ok .hlt ∧ decode 0xA2 0x00 0x01 = .ok (.mul 0 1) ∧
  decode 0xA0 0x02 0x03 = .ok (.add 2 3) ∧ decode 0xA7 0x02 0x03 = .ok (.cmp 2 3) ∧
  decode 0x45 0x00 0x00 = .ok (.push 0) ∧ decode 0x46 0x01 0x00 = .ok (.pop 1) ∧
  decode 0x50 0x01 0x00 = .ok (.call 1) ∧ decode 0x11 0x00 0x00 = .ok .ret ∧
  decode 0x54 0x04 0x00 = .ok (.jmp 4) ∧ decode 0x55 0x03 0x00 = .ok (.jeq 3) ∧
  decode 0x56 0x04 0x00 = .ok (.jne 4)

/-! ## The step and its faults -/

/-- 40_dispatch_cycle.md R110: the core has a step exactly when RUNNING, whatever the memory holds. -/
def Obligations.StepExistsExactlyWhileRunning : Prop :=
  ∀ s : State, (∃ t, step s = .next t) ↔ s.runState = .running

/-- HALTED and FAULTED have no step; the model's step says so by a stop of its own name (the model's choice, log 13;
40_dispatch_cycle.md R110, 60_exceptions.md R191). -/
def Obligations.TerminalStatesStopByName : Prop :=
  (∀ s : State, s.runState = .halted → step s = .fault .halted) ∧
  (∀ s : State, s.runState = .faulted → step s = .fault .faulted)

/-- When the three bytes at `pc` decode to `i`, the step is `exec i` at that state; the step adds nothing around it
(40_dispatch_cycle.md R111 to R113, R120). -/
def Obligations.StepRunsDecodedInstruction : Prop :=
  ∀ (s : State) (i : Instr), s.runState = .running → s.pc.toNat ≤ 253 →
    decode (s.mem.read s.pc.toNat) (s.mem.read (s.pc.toNat + 1)) (s.mem.read (s.pc.toNat + 2)) = .ok i →
    step s = exec i s

/-- A fetch at `pc` = 254, 255 or 256 faults with OutOfBoundsAccess(256), whatever the opcode
(40_dispatch_cycle.md R111; the spec's decision D4, log 5). -/
def Obligations.FetchNearTopFaults : Prop :=
  ∀ s : State, s.runState = .running → 254 ≤ s.pc.toNat → s.pc.toNat ≤ 256 →
    step s = .next (s.faultedWith (.outOfBoundsAccess 256))

/-- 60_exceptions.md R181: an opcode byte that is not in the instruction table faults with InvalidInstruction, recording
the byte and `pc`; no other state changes. -/
def Obligations.IllegalOpcodeFaults : Prop :=
  ∀ s : State, s.runState = .running → s.pc.toNat ≤ 253 → legalOpcode (s.mem.read s.pc.toNat) = false →
    step s = .next (s.faultedWith (.invalidInstruction (s.mem.read s.pc.toNat)))

/-- A step that ends FAULTED has written RUNSTATE and FAULT (60_exceptions.md R189), and that is all: that the whole
step leaves no partial effect is the spec's decision D12 (log 10; 00_scope.md R13, 60_exceptions.md R190). -/
def Obligations.FaultEntryWritesOnlyRunStateAndFault : Prop :=
  ∀ s t : State, step s = .next t → t.runState = .faulted → ∃ k, t = s.faultedWith k

/-- A step faults exactly when the spec's fault list says so, with the first fault in priority order: fetch bounds,
opcode, operand A, operand B, stack pointer. The order is the spec's decision D13, the list is marked derived (log 10;
40_dispatch_cycle.md R117, 60_exceptions.md R188, R199). -/
def Obligations.StepFaultsExactlyInPriorityOrder : Prop :=
  ∀ s : State, s.runState = .running → s.pc.toNat ≤ 256 → ∃ t, step s = .next t ∧
    (match s.expectedFault with
     | some k => t = s.faultedWith k
     | none => t.runState ≠ .faulted)

/-- Every instruction with a register operand byte above 7 raises InvalidRegister of the first such byte and does nothing
else, a JEQ or JNE also when it would not be taken (30_encoding.md R84, 60_exceptions.md R183; the spec's decisions D5, D13, D16,
logs 6 and 10). -/
def Obligations.InvalidRegisterOperandFaults : Prop :=
  ∀ (i : Instr) (b : Byte) (s : State), i.regOperands.find? (fun b => decide (8 ≤ b.toNat)) = some b →
    exec i s = .next (s.faultedWith (.invalidRegister b))

/-- An instruction whose register operand bytes are all 0..7 never raises InvalidRegister: a record of it after the
instruction was there before (30_encoding.md R84, R95; the spec's decision D5, log 6). -/
def Obligations.WellFormedNeverRaisesInvalidRegister : Prop :=
  ∀ (i : Instr) (s t : State) (b : Byte) (p : Pc), i.wf = true → exec i s = .next t →
    t.fault = some ⟨.invalidRegister b, p⟩ → s.fault = some ⟨.invalidRegister b, p⟩

/-- The transitions of RUNSTATE: only a RUNNING core steps, and it ends HALTED exactly when the instruction it fetched is
HLT (10_state.md R31; terminal states are the spec's decision D20, log 13). -/
def Obligations.HaltedExactlyByHlt : Prop :=
  ∀ s t : State, step s = .next t → s.runState = .running ∧
    (t.runState = .halted ↔ s.pc.toNat ≤ 253 ∧
      decode (s.mem.read s.pc.toNat) (s.mem.read (s.pc.toNat + 1)) (s.mem.read (s.pc.toNat + 2)) = .ok .hlt)

/-- UnsupportedALUOperation cannot occur: no step records it (42_alu_compare.md R146, marked derived there; log 16). -/
def Obligations.UnsupportedAluNeverRaised : Prop :=
  ∀ (s t : State) (p : Pc), step s = .next t → s.fault ≠ some ⟨.unsupportedAluOperation, p⟩ →
    t.fault ≠ some ⟨.unsupportedAluOperation, p⟩

/-! ## The instructions, one statement each: the whole next state, so result, frame and completion -/

/-- 41_load_print_halt.md R130. -/
def Obligations.LdiLoadsImmediate : Prop :=
  (∀ (opA imm : Byte) (s : State) (h : opA.toNat < 8),
    exec (.ldi opA imm) s = .next { s with regs := s.regs.set opA.toNat imm h, pc := s.pc + 3 }) ∧
  (∀ (opA imm : Byte) (s : State), 8 ≤ opA.toNat →
    exec (.ldi opA imm) s = .next (s.faultedWith (.invalidRegister opA)))

/-- 41_load_print_halt.md R131. -/
def Obligations.PrnEmitsRegister : Prop :=
  (∀ (opA : Byte) (s : State) (_ : opA.toNat < 8),
    exec (.prn opA) s = .next { s with out := s.out ++ [s.regs[opA.toNat]], pc := s.pc + 2 }) ∧
  (∀ (opA : Byte) (s : State), 8 ≤ opA.toNat →
    exec (.prn opA) s = .next (s.faultedWith (.invalidRegister opA)))

/-- 40_dispatch_cycle.md R115: HLT changes the dispatcher's run state only. That `pc` stays is the last step of R114 as
well (the spec's decision D6, log 7). -/
def Obligations.HltChangesOnlyRunState : Prop :=
  ∀ s : State, exec .hlt s = .next { s with runState := .halted }

/-- 42_alu_compare.md R141. -/
def Obligations.MulKeepsLowEightBits : Prop :=
  (∀ (opA opB : Byte) (s : State) (hA : opA.toNat < 8) (_ : opB.toNat < 8),
    exec (.mul opA opB) s = .next { s with
      regs := s.regs.set opA.toNat (BitVec.ofNat 8 (s.regs[opA.toNat].toNat * s.regs[opB.toNat].toNat % 256)) hA
      pc := s.pc + 3 }) ∧
  (∀ (opA opB : Byte) (s : State), 8 ≤ opA.toNat →
    exec (.mul opA opB) s = .next (s.faultedWith (.invalidRegister opA))) ∧
  (∀ (opA opB : Byte) (s : State), opA.toNat < 8 → 8 ≤ opB.toNat →
    exec (.mul opA opB) s = .next (s.faultedWith (.invalidRegister opB)))

/-- 42_alu_compare.md R142. -/
def Obligations.AddKeepsLowEightBits : Prop :=
  (∀ (opA opB : Byte) (s : State) (hA : opA.toNat < 8) (_ : opB.toNat < 8),
    exec (.add opA opB) s = .next { s with
      regs := s.regs.set opA.toNat (BitVec.ofNat 8 ((s.regs[opA.toNat].toNat + s.regs[opB.toNat].toNat) % 256)) hA
      pc := s.pc + 3 }) ∧
  (∀ (opA opB : Byte) (s : State), 8 ≤ opA.toNat →
    exec (.add opA opB) s = .next (s.faultedWith (.invalidRegister opA))) ∧
  (∀ (opA opB : Byte) (s : State), opA.toNat < 8 → 8 ≤ opB.toNat →
    exec (.add opA opB) s = .next (s.faultedWith (.invalidRegister opB)))

/-- CMP writes the whole of `FL`, whatever it held: 1 if equal, 2 if greater, 4 if less (42_alu_compare.md R143). That the
comparison is unsigned is the spec's decision D10 (log 8). -/
def Obligations.CmpWritesComparison : Prop :=
  (∀ (opA opB : Byte) (s : State) (_ : opA.toNat < 8) (_ : opB.toNat < 8),
    exec (.cmp opA opB) s = .next { s with
      fl := if s.regs[opA.toNat] = s.regs[opB.toNat] then 0b001
            else if s.regs[opA.toNat].toNat > s.regs[opB.toNat].toNat then 0b010 else 0b100
      pc := s.pc + 3 }) ∧
  (∀ (opA opB : Byte) (s : State), 8 ≤ opA.toNat →
    exec (.cmp opA opB) s = .next (s.faultedWith (.invalidRegister opA))) ∧
  (∀ (opA opB : Byte) (s : State), opA.toNat < 8 → 8 ≤ opB.toNat →
    exec (.cmp opA opB) s = .next (s.faultedWith (.invalidRegister opB)))

/-- PUSH decrements `SP` and stores the register there, read after the decrement, so PUSH R7 stores the decremented `SP`
(43_stack.md R150, R151). The fault at `SP` = 0 and the R7 form are the spec's decisions D11 and D15 (logs 9 and 11). -/
def Obligations.PushStoresAtDecrementedSp : Prop :=
  (∀ (opA : Byte) (s : State) (_ : opA.toNat < 8), s.mem.wf = true → s.sp ≠ 0 →
    ∃ t, exec (.push opA) s = .next t ∧ t.regs = s.regs.set 7 (s.sp - 1) ∧ t.pc = s.pc + 2 ∧
      (∀ a, t.mem.read a = if a = (s.sp - 1).toNat then t.regs[opA.toNat] else s.mem.read a) ∧
      t.fl = s.fl ∧ t.runState = s.runState ∧ t.fault = s.fault ∧ t.out = s.out) ∧
  (∀ (opA : Byte) (s : State), opA.toNat < 8 → s.sp = 0 →
    exec (.push opA) s = .next (s.faultedWith (.outOfBoundsAccess (-1)))) ∧
  (∀ (opA : Byte) (s : State), 8 ≤ opA.toNat →
    exec (.push opA) s = .next (s.faultedWith (.invalidRegister opA)))

/-- POP loads the register from `SP` and increments `SP`; POP R7 ends with `SP` = the loaded byte + 1; memory is unchanged
(43_stack.md R150, R152). The faults on `SP` and the R7 form are the spec's decisions D11 and D15 (logs 9 and 11). -/
def Obligations.PopLoadsFromSp : Prop :=
  (∀ (opA : Byte) (s : State) (h : opA.toNat < 8), opA ≠ 7 → s.sp ≠ 255 →
    exec (.pop opA) s = .next { s with
      regs := (s.regs.set opA.toNat (s.mem.read s.sp.toNat) h).set 7 (s.sp + 1)
      pc := s.pc + 2 }) ∧
  (∀ s : State, s.mem.read s.sp.toNat ≠ 255 →
    exec (.pop 7) s = .next { s with regs := s.regs.set 7 (s.mem.read s.sp.toNat + 1), pc := s.pc + 2 }) ∧
  (∀ (opA : Byte) (s : State), opA.toNat < 8 → opA ≠ 7 → s.sp = 255 →
    exec (.pop opA) s = .next (s.faultedWith (.outOfBoundsAccess 256))) ∧
  (∀ s : State, s.mem.read s.sp.toNat = 255 →
    exec (.pop 7) s = .next (s.faultedWith (.outOfBoundsAccess 256))) ∧
  (∀ (opA : Byte) (s : State), 8 ≤ opA.toNat →
    exec (.pop opA) s = .next (s.faultedWith (.invalidRegister opA)))

/-- CALL decrements `SP`, stores `pc + 2` there and jumps to the register, read after the decrement, so CALL R7 jumps to
the decremented `SP` (44_control_transfer.md R160, R161). A CALL is fetched only at `pc` up to 253 (log 14). The fault at `SP` = 0
and the R7 form are the spec's decisions D11 and D15 (logs 9 and 11). -/
def Obligations.CallPushesReturnAddress : Prop :=
  (∀ (opA : Byte) (s : State) (_ : opA.toNat < 8), s.mem.wf = true → s.pc.toNat ≤ 253 → s.sp ≠ 0 →
    ∃ t, exec (.call opA) s = .next t ∧ t.regs = s.regs.set 7 (s.sp - 1) ∧
      t.pc.toNat = t.regs[opA.toNat].toNat ∧
      (t.mem.read (s.sp - 1).toNat).toNat = s.pc.toNat + 2 ∧
      (∀ a, a ≠ (s.sp - 1).toNat → t.mem.read a = s.mem.read a) ∧
      t.fl = s.fl ∧ t.runState = s.runState ∧ t.fault = s.fault ∧ t.out = s.out) ∧
  (∀ (opA : Byte) (s : State), opA.toNat < 8 → s.sp = 0 →
    exec (.call opA) s = .next (s.faultedWith (.outOfBoundsAccess (-1)))) ∧
  (∀ (opA : Byte) (s : State), 8 ≤ opA.toNat →
    exec (.call opA) s = .next (s.faultedWith (.invalidRegister opA)))

/-- RET jumps to the byte at `SP` and increments `SP`; memory is unchanged (44_control_transfer.md R162). The fault at
`SP` = 255 is the spec's decision D11 (log 9). -/
def Obligations.RetJumpsToPoppedByte : Prop :=
  (∀ s : State, s.sp ≠ 255 →
    exec .ret s = .next { s with
      regs := s.regs.set 7 (s.sp + 1)
      pc := BitVec.ofNat 9 (s.mem.read s.sp.toNat).toNat }) ∧
  (∀ s : State, s.sp = 255 → exec .ret s = .next (s.faultedWith (.outOfBoundsAccess 256)))

/-- 44_control_transfer.md R163. -/
def Obligations.JmpJumpsToRegister : Prop :=
  (∀ (opA : Byte) (s : State) (_ : opA.toNat < 8),
    exec (.jmp opA) s = .next { s with pc := BitVec.ofNat 9 s.regs[opA.toNat].toNat }) ∧
  (∀ (opA : Byte) (s : State), 8 ≤ opA.toNat →
    exec (.jmp opA) s = .next (s.faultedWith (.invalidRegister opA)))

/-- JEQ jumps exactly when `E` is set and otherwise moves 2 bytes on (44_control_transfer.md R164). That the operand is
checked when not taken is the spec's decision D16 (log 6). -/
def Obligations.JeqJumpsIfEqualFlag : Prop :=
  (∀ (opA : Byte) (s : State) (_ : opA.toNat < 8),
    exec (.jeq opA) s = .next { s with
      pc := if s.fl.getLsbD 0 = true then BitVec.ofNat 9 s.regs[opA.toNat].toNat else s.pc + 2 }) ∧
  (∀ (opA : Byte) (s : State), 8 ≤ opA.toNat →
    exec (.jeq opA) s = .next (s.faultedWith (.invalidRegister opA)))

/-- JNE jumps exactly when `E` is clear and otherwise moves 2 bytes on (44_control_transfer.md R165). That the operand is
checked when not taken is the spec's decision D16 (log 6). -/
def Obligations.JneJumpsIfEqualFlagClear : Prop :=
  (∀ (opA : Byte) (s : State) (_ : opA.toNat < 8),
    exec (.jne opA) s = .next { s with
      pc := if s.fl.getLsbD 0 = false then BitVec.ofNat 9 s.regs[opA.toNat].toNat else s.pc + 2 }) ∧
  (∀ (opA : Byte) (s : State), 8 ≤ opA.toNat →
    exec (.jne opA) s = .next (s.faultedWith (.invalidRegister opA)))

/-! ## What all instructions leave alone, and what they do not look at -/

/-- 10_state.md R24, both columns: a register outside the "writes" column keeps its value, and the value of a register
outside the "reads" column changes nothing but, at most, that register itself. -/
def Obligations.RegistersUsedAsTable : Prop :=
  (∀ (i : Instr) (s t : State) (r : RegIdx), exec i s = .next t → BitVec.ofNat 8 r.val ∉ i.written →
    t.reg r = s.reg r) ∧
  (∀ (i : Instr) (s t : State) (r : RegIdx) (v : Byte), exec i s = .next t →
    BitVec.ofNat 8 r.val ∉ i.readRegs (s.fl.getLsbD 0) →
    ∃ t', exec i (s.setReg r v) = .next t' ∧ { t' with regs := t.regs } = t ∧
      (∀ j, j ≠ r → t'.reg j = t.reg j) ∧ (t'.reg r = t.reg r ∨ t'.reg r = v))

/-- 10_state.md R26: CMP is the only instruction that writes `FL`; only JEQ and JNE read it, and they read only bit 0. -/
def Obligations.FlagsWrittenByCmpReadByConditionalJumps : Prop :=
  (∀ (i : Instr) (s t : State), exec i s = .next t → (∀ opA opB, i ≠ .cmp opA opB) → t.fl = s.fl) ∧
  (∀ (i : Instr) (s t : State) (f : Byte), exec i s = .next t →
    (f.getLsbD 0 = s.fl.getLsbD 0 ∨ ((∀ opA, i ≠ .jeq opA) ∧ (∀ opA, i ≠ .jne opA))) →
    ∃ t', exec i { s with fl := f } = .next t' ∧ { t' with fl := t.fl } = t)

/-- Only PUSH and CALL write memory, and only the byte at the new `SP`: every other byte reads as before
(10_state.md R33, 20_memory.md R56, R57). -/
def Obligations.MemoryWrittenOnlyByPushAndCall : Prop :=
  ∀ (i : Instr) (s t : State) (a : Nat), exec i s = .next t →
    (((∀ opA, i ≠ .push opA) ∧ (∀ opA, i ≠ .call opA)) ∨ a ≠ (s.sp - 1).toNat) →
    t.mem.read a = s.mem.read a

/-- Only POP and RET read memory as data, and only the byte at the old `SP`: any other contents give the same next state
apart from memory (10_state.md R33, 20_memory.md R56). -/
def Obligations.MemoryReadAsDataOnlyByPopAndRet : Prop :=
  ∀ (i : Instr) (s t : State) (m : Memory), exec i s = .next t →
    (m.read s.sp.toNat = s.mem.read s.sp.toNat ∨ ((∀ opA, i ≠ .pop opA) ∧ i ≠ .ret)) →
    ∃ t', exec i { s with mem := m } = .next t' ∧ { t' with mem := t.mem } = t

/-- `OUT` only ever grows, by one element at its end per executed PRN, and no instruction reads it (10_state.md R34). -/
def Obligations.OutputGrowsOnlyByPrn : Prop :=
  (∀ (i : Instr) (s t : State), exec i s = .next t →
    t.out = s.out ∨ ∃ opA, ∃ _ : opA.toNat < 8, i = .prn opA ∧ t.out = s.out ++ [s.regs[opA.toNat]]) ∧
  (∀ (i : Instr) (s t : State) (o : List Byte), exec i s = .next t →
    ∃ t', exec i { s with out := o } = .next t' ∧ { t' with out := t.out } = t)

/-- RUNSTATE and FAULT change only by a raise, which changes nothing else, and by HLT (10_state.md R31, R32;
60_exceptions.md R190, the spec's decision D12, log 10). -/
def Obligations.RunStateChangedOnlyByRaiseAndHlt : Prop :=
  ∀ (i : Instr) (s t : State), exec i s = .next t →
    (∃ k, t = s.faultedWith k) ∨ (i = .hlt ∧ t = { s with runState := .halted }) ∨
    (i ≠ .hlt ∧ t.runState = s.runState ∧ t.fault = s.fault)

/-- What each instruction that does not fault does to `pc`. The increments are those of 40_dispatch_cycle.md R119; with
increment 0 `pc` is exactly the target the handler wrote (44_control_transfer.md R160 to R165). That CALL R7 goes to the
register after the decrement is the spec's decision D15 (log 11), and that HLT leaves `pc` its decision D6 (log 7). -/
def Obligations.IncrementAsTable : Prop :=
  ∀ (i : Instr) (s t : State), s.runState = .running → exec i s = .next t → t.runState ≠ .faulted →
    match i with
    | .ldi _ _ => t.pc = s.pc + 3
    | .prn _ => t.pc = s.pc + 2
    | .hlt => t.pc = s.pc
    | .mul _ _ => t.pc = s.pc + 3
    | .add _ _ => t.pc = s.pc + 3
    | .cmp _ _ => t.pc = s.pc + 3
    | .push _ => t.pc = s.pc + 2
    | .pop _ => t.pc = s.pc + 2
    | .call opA => ∃ _ : opA.toNat < 8, t.pc.toNat = t.regs[opA.toNat].toNat
    | .ret => t.pc.toNat = (s.mem.read s.sp.toNat).toNat
    | .jmp opA => ∃ _ : opA.toNat < 8, t.pc.toNat = s.regs[opA.toNat].toNat
    | .jeq opA =>
      if s.fl.getLsbD 0 = true then ∃ _ : opA.toNat < 8, t.pc.toNat = s.regs[opA.toNat].toNat else t.pc = s.pc + 2
    | .jne opA =>
      if s.fl.getLsbD 0 = true then t.pc = s.pc + 2 else ∃ _ : opA.toNat < 8, t.pc.toNat = s.regs[opA.toNat].toNat

/-! ## Reset and load -/

/-- The state after reset. `pc` = 0 and RUNNING are the source's; the register, flag and memory values are the spec's
decisions D3, D7, D8, D9 (logs 3 and 4; 10_state.md R40, 70_reset_and_hazards.md R210). -/
def Obligations.ResetValues : Prop :=
  (∀ i : RegIdx, State.reset.reg i = if i = 7 then 0xF4 else 0x00) ∧ State.reset.fl = 0 ∧ State.reset.pc = 0 ∧
  State.reset.runState = .running ∧ State.reset.fault = none ∧ (∀ a, State.reset.mem.read a = 0) ∧
  State.reset.out = []

/-- With `SP_RESET` = 0 a PUSH or CALL right after reset faults with OutOfBoundsAccess(-1)
(70_reset_and_hazards.md R213; the spec's decisions D3 and D11, logs 3 and 9). -/
def Obligations.ZeroSpResetMakesFirstPushFault : Prop :=
  ∀ (p : Config.ResetParams) (opA : Byte), p.spReset = 0 → opA.toNat < 8 →
    exec (.push opA) (State.resetWith p) = .next ((State.resetWith p).faultedWith (.outOfBoundsAccess (-1))) ∧
    exec (.call opA) (State.resetWith p) = .next ((State.resetWith p).faultedWith (.outOfBoundsAccess (-1)))

/-- A load of at most 256 bytes puts byte `j` at address `j` and changes no other cell and no other state; a longer one
is refused whole. The refusal is the spec's decision D17 (log 12; 20_memory.md R66, R67). -/
def Obligations.LoadPlacesImageOrRefuses : Prop :=
  (∀ (s : State) (image : List Byte), s.mem.wf = true → image.length ≤ 256 →
    (∀ (j : Nat) (_ : j < image.length), (s.load image).mem.read j = image[j]) ∧
    (∀ a, image.length ≤ a → (s.load image).mem.read a = s.mem.read a) ∧
    { s.load image with mem := s.mem } = s) ∧
  (∀ (s : State) (image : List Byte), 256 < image.length →
    s.load image = { s with runState := .faulted, fault := some ⟨.outOfBoundsAccess 256, 0⟩ })

/-- 70_reset_and_hazards.md R211: the first fetch after reset and load reads `MEM[0]`, `MEM[1]`, `MEM[2]`. -/
def Obligations.FirstFetchReadsAddressZero : Prop :=
  ∀ image : List Byte, fetch (State.launch image) =
    .ok ((State.launch image).mem.read 0, (State.launch image).mem.read 1, (State.launch image).mem.read 2)

/-! ## Invariants -/

/-- The reset state meets the invariant (10_state.md R40, R42). -/
def Obligations.ResetMeetsInvariant : Prop :=
  State.reset.Inv

/-- Every launch state meets the invariant, a refused load's too (10_state.md R40, 20_memory.md R66). -/
def Obligations.LaunchMeetsInvariant : Prop :=
  ∀ image : List Byte, (State.launch image).Inv

/-- Every step keeps the invariant: memory canonical, `pc` in 0..256, `FL` in 0, 1, 2, 4, `FAULT` present exactly in
FAULTED with the `pc` of the faulting instruction and a cause that can occur (10_state.md R25, R27, R30, R31, R32). -/
def Obligations.StepKeepsInvariant : Prop :=
  ∀ s t : State, s.Inv → step s = .next t → t.Inv

/-- The values a run can reach, from any image: `pc` at most 256, `FL` one of 0, 1, 2, 4, and a recorded fault is an
illegal opcode, the address -1 or 256, or an operand byte above 7 (10_state.md R27, R30, R32, R42; 20_memory.md R52).
It follows from the launch state and the step keeping the invariant, by induction on the run. -/
def Obligations.ReachableValuesAsStated : Prop :=
  ∀ (image : List Byte) (s : State), Reachable image s →
    s.pc.toNat ≤ 256 ∧ (s.fl = 0 ∨ s.fl = 1 ∨ s.fl = 2 ∨ s.fl = 4) ∧
    (s.fault = none ↔ s.runState ≠ .faulted) ∧
    ∀ f, s.fault = some f → f.pc = s.pc ∧
      ((∃ op, f.cause = .invalidInstruction op ∧ legalOpcode op = false) ∨
       f.cause = .outOfBoundsAccess (-1) ∨ f.cause = .outOfBoundsAccess 256 ∨
       (∃ b, f.cause = .invalidRegister b ∧ 8 ≤ b.toNat))

/-- A completed run, one that reached HALTED, has recorded no fault and takes no further step (60_exceptions.md R192,
40_dispatch_cycle.md R110). -/
def Obligations.CompletedRunHasNoFaultAndNoStep : Prop :=
  ∀ (image : List Byte) (s : State), Reachable image s → s.completed = true →
    s.fault = none ∧ ∀ t, step s ≠ .next t

/-- After a CMP exactly one of the three low bits of `FL` is set, the one that tells how the unsigned values compare, and
from then on `FL` stays one of 1, 2, 4 (10_state.md R25, R27; unsigned: the spec's decision D10, log 8). -/
def Obligations.ExactlyOneFlagAfterCompare : Prop :=
  (∀ (opA opB : Byte) (s t : State) (_ : opA.toNat < 8) (_ : opB.toNat < 8), exec (.cmp opA opB) s = .next t →
    (t.fl = 1 ∨ t.fl = 2 ∨ t.fl = 4) ∧
    (t.fl.getLsbD 0 = true ↔ s.regs[opA.toNat].toNat = s.regs[opB.toNat].toNat) ∧
    (t.fl.getLsbD 1 = true ↔ s.regs[opA.toNat].toNat > s.regs[opB.toNat].toNat) ∧
    (t.fl.getLsbD 2 = true ↔ s.regs[opA.toNat].toNat < s.regs[opB.toNat].toNat)) ∧
  (∀ s t : State, step s = .next t → (s.fl = 1 ∨ s.fl = 2 ∨ s.fl = 4) → (t.fl = 1 ∨ t.fl = 2 ∨ t.fl = 4))

/-- Two canonical memories that read alike are the same list (the model's representation of 10_state.md R33, R42). -/
def Obligations.CanonicalMemoriesReadingAlikeAreEqual : Prop :=
  ∀ m m' : Memory, m.wf = true → m'.wf = true → (∀ a, m.read a = m'.read a) → m = m'

/-! ## Properties across two instructions -/

/-- PUSH r then POP r' leaves r' equal to r's pre-push value and every other register, `SP` among them, as it was, for r
and r' in 0..6 and pre-push `SP` in 1..255 (43_stack.md R152 corner case 4, 90_conflicts.md C2). -/
def Obligations.PushThenPopIsInverse : Prop :=
  ∀ (r r' : Byte) (s : State) (_ : r.toNat < 7) (_ : r'.toNat < 7), s.mem.wf = true → s.sp ≠ 0 →
    ∃ t u, exec (.push r) s = .next t ∧ exec (.pop r') t = .next u ∧
      u.regs = s.regs.set r'.toNat s.regs[r.toNat] ∧ u.sp = s.sp ∧ u.pc = s.pc + 4

/-- A RET executed where `SP` and the cell at `SP` are as a CALL left them resumes at the instruction after that CALL,
with `SP` as before it (44_control_transfer.md R162 corner case 4, marked derived there). -/
def Obligations.RetResumesAfterCall : Prop :=
  ∀ (opA : Byte) (s t u : State), opA.toNat < 8 → s.mem.wf = true → s.pc.toNat ≤ 253 → s.sp ≠ 0 →
    exec (.call opA) s = .next t → u.sp = t.sp → u.mem.read u.sp.toNat = t.mem.read t.sp.toNat →
    ∃ v, exec .ret u = .next v ∧ v.pc.toNat = s.pc.toNat + 2 ∧ v.sp = s.sp

/-- After CMP a, b a JEQ is taken exactly if the registers are equal and a JNE exactly if they differ
(44_control_transfer.md R164 corner case 2, R165 corner cases 2 and 3). -/
def Obligations.ConditionalJumpsFollowCompare : Prop :=
  ∀ (opA opB opC : Byte) (s : State) (_ : opA.toNat < 8) (_ : opB.toNat < 8) (_ : opC.toNat < 8),
    ∃ t, exec (.cmp opA opB) s = .next t ∧
      exec (.jeq opC) t = .next { t with
        pc := if s.regs[opA.toNat] = s.regs[opB.toNat] then BitVec.ofNat 9 s.regs[opC.toNat].toNat
              else s.pc + 5 } ∧
      exec (.jne opC) t = .next { t with
        pc := if s.regs[opA.toNat] = s.regs[opB.toNat] then s.pc + 5
              else BitVec.ofNat 9 s.regs[opC.toNat].toNat }

/-- A byte stored by PUSH is what the very next fetch of that address reads as its opcode (20_memory.md R64). -/
def Obligations.FetchSeesPushedByte : Prop :=
  ∀ (opA : Byte) (s t : State) (p : Pc) (_ : opA.toNat < 8), s.mem.wf = true → s.sp ≠ 0 →
    exec (.push opA) s = .next t → p.toNat = (s.sp - 1).toNat → p.toNat ≤ 253 →
    ∃ opX opY, fetch { t with pc := p } = .ok (t.regs[opA.toNat], opX, opY)

/-- A jump to 254 or 255 is accepted, and the fault comes at the next step's fetch, with `pc` = the target
(44_control_transfer.md R160 d; the spec's decision D4, log 5). -/
def Obligations.JumpNearTopFaultsAtNextFetch : Prop :=
  ∀ (opA : Byte) (s : State) (_ : opA.toNat < 8), s.runState = .running → 254 ≤ s.regs[opA.toNat].toNat →
    ∃ t, exec (.jmp opA) s = .next t ∧ t.pc.toNat = s.regs[opA.toNat].toNat ∧
      step t = .next (t.faultedWith (.outOfBoundsAccess 256))

/-- The ALU keeps the low eight bits of the exact sum or product (42_alu_compare.md R140, R144; the spec's decision D2,
log 2). -/
def Obligations.AluWrapsModulo256 : Prop :=
  ∀ p q : Byte, (alu .add p q).toNat = (p.toNat + q.toNat) % 256 ∧ (alu .mul p q).toNat = (p.toNat * q.toNat) % 256
end

