-- ==== Sys2Proof/Laws/Decode.lean ====
section
/-! SUPPORT. The decoder and the encoder: sizes, and what a decoded instruction says of its bytes. -/

namespace Sys2Proof

variable (opA opB imm : Byte)

@[simp] theorem Instr.size_ldi : (Instr.ldi opA imm).size = 3 :=
  show opcodeSize 0x82 = 3 by decide
@[simp] theorem Instr.size_prn : (Instr.prn opA).size = 2 :=
  show opcodeSize 0x47 = 2 by decide
@[simp] theorem Instr.size_hlt : Instr.hlt.size = 1 := rfl
@[simp] theorem Instr.size_mul : (Instr.mul opA opB).size = 3 :=
  show opcodeSize 0xA2 = 3 by decide
@[simp] theorem Instr.size_add : (Instr.add opA opB).size = 3 :=
  show opcodeSize 0xA0 = 3 by decide
@[simp] theorem Instr.size_cmp : (Instr.cmp opA opB).size = 3 :=
  show opcodeSize 0xA7 = 3 by decide
@[simp] theorem Instr.size_push : (Instr.push opA).size = 2 :=
  show opcodeSize 0x45 = 2 by decide
@[simp] theorem Instr.size_pop : (Instr.pop opA).size = 2 :=
  show opcodeSize 0x46 = 2 by decide
@[simp] theorem Instr.size_call : (Instr.call opA).size = 2 :=
  show opcodeSize 0x50 = 2 by decide
@[simp] theorem Instr.size_ret : Instr.ret.size = 1 := rfl
@[simp] theorem Instr.size_jmp : (Instr.jmp opA).size = 2 :=
  show opcodeSize 0x54 = 2 by decide
@[simp] theorem Instr.size_jeq : (Instr.jeq opA).size = 2 :=
  show opcodeSize 0x55 = 2 by decide
@[simp] theorem Instr.size_jne : (Instr.jne opA).size = 2 :=
  show opcodeSize 0x56 = 2 by decide

/-- The lookup succeeds exactly at a row of the table (30_encoding.md R82). -/
theorem decode_eq_ok_iff (op a b : Byte) (i : Instr) :
    decode op a b = .ok i ↔ ∃ row, opcodeTable.find? (fun r => r.opcode == op) = some row ∧ row.build a b = i := by
  unfold decode
  split
  · next row h => simp [h]
  · next h => simp [h]

/-- A rejected opcode byte is the opcode of no row (30_encoding.md R88). -/
theorem decode_eq_error_iff (op a b : Byte) :
    (∃ e, decode op a b = .error e) ↔ ∀ row ∈ opcodeTable, row.opcode ≠ op := by
  unfold decode
  split
  · next row h =>
    have := List.find?_some h
    simp only [reduceCtorEq, exists_false, ne_eq, false_iff, not_forall, not_not]
    exact ⟨row, List.mem_of_find?_eq_some h, by simpa using this⟩
  · next h => simpa using h

end Sys2Proof
end

