-- ==== Sys2Proof/Laws/Memory.lean ====
section
/-! SUPPORT. Memory: read after write, and that every operation keeps the canonical form (20_memory.md R57). -/

namespace Sys2Proof.Machine

/-- A canonical list read below its first admissible address gives the fill. -/
theorem Memory.read_of_lt {lo a : Nat} {m : Memory} (h : m.wfFrom lo = true) (ha : a < lo) :
    m.read a = Config.memFill := by
  induction m generalizing lo with
  | nil => rfl
  | cons c m ih =>
    obtain ⟨k, v⟩ := c
    simp only [Memory.wfFrom, Bool.and_eq_true, decide_eq_true_eq] at h
    have hk : k ≠ a := by omega
    simp only [Memory.read, hk, if_false]
    exact ih h.2 (by omega)

theorem Memory.wfFrom_mono {lo lo' : Nat} {m : Memory} (h : m.wfFrom lo = true) (hle : lo' ≤ lo) :
    m.wfFrom lo' = true := by
  cases m with
  | nil => rfl
  | cons c m =>
    obtain ⟨k, v⟩ := c
    simp only [Memory.wfFrom, Bool.and_eq_true, decide_eq_true_eq] at h ⊢
    exact ⟨⟨⟨by omega, h.1.1.2⟩, h.1.2⟩, h.2⟩

/-- A cell holds what was last written to it. -/
theorem Memory.read_write_same {lo a : Nat} {m : Memory} (v : Byte) (h : m.wfFrom lo = true) :
    (m.write a v).read a = v := by
  induction m generalizing lo with
  | nil => by_cases hv : v = Config.memFill <;> simp [Memory.write, Memory.read, hv]
  | cons c m ih =>
    obtain ⟨k, w⟩ := c
    have h' := h
    simp only [Memory.wfFrom, Bool.and_eq_true, decide_eq_true_eq] at h'
    by_cases hak : a < k
    · by_cases hv : v = Config.memFill
      · simp only [Memory.write, hak, hv, if_true]
        exact Memory.read_of_lt (lo := k) (by simp [Memory.wfFrom, h'.1.1.2, h'.1.2, h'.2]) hak
      · simp [Memory.write, Memory.read, hak, hv]
    · by_cases he : a = k
      · subst he
        by_cases hv : v = Config.memFill
        · simp only [Memory.write, lt_irrefl, if_false, if_true, hv]
          exact Memory.read_of_lt h'.2 (by omega)
        · simp [Memory.write, Memory.read, hv]
      · have hka : k ≠ a := fun e => he e.symm
        simp only [Memory.write, hak, he, if_false, Memory.read, hka]
        exact ih h'.2

/-- A write affects its own cell only. -/
theorem Memory.read_write_ne {a b : Nat} (m : Memory) (v : Byte) (h : b ≠ a) :
    (m.write a v).read b = m.read b := by
  induction m with
  | nil =>
    have h' : a ≠ b := h.symm
    by_cases hv : v = Config.memFill <;> simp [Memory.write, Memory.read, hv, h']
  | cons c m ih =>
    obtain ⟨k, w⟩ := c
    have h' : a ≠ b := h.symm
    by_cases hak : a < k
    · by_cases hv : v = Config.memFill <;> simp [Memory.write, Memory.read, hak, hv, h']
    · by_cases he : a = k
      · subst he
        by_cases hv : v = Config.memFill <;> simp [Memory.write, Memory.read, hv, h']
      · simp only [Memory.write, hak, he, if_false, Memory.read, ih]

/-- Read after write, both cases. -/
theorem Memory.read_write {a b : Nat} {m : Memory} (v : Byte) (h : m.wf = true) :
    (m.write a v).read b = if b = a then v else m.read b := by
  by_cases hb : b = a
  · subst hb
    simp only [if_true]
    exact Memory.read_write_same v h
  · simp only [hb, if_false]
    exact Memory.read_write_ne m v hb

theorem Memory.wfFrom_write {lo a : Nat} {m : Memory} (v : Byte) (h : m.wfFrom lo = true)
    (hlo : lo ≤ a) (ha : a < Config.memSize) : (m.write a v).wfFrom lo = true := by
  induction m generalizing lo with
  | nil => by_cases hv : v = Config.memFill <;> simp [Memory.write, Memory.wfFrom, hv, hlo, ha]
  | cons c m ih =>
    obtain ⟨k, w⟩ := c
    have h' := h
    simp only [Memory.wfFrom, Bool.and_eq_true, decide_eq_true_eq] at h'
    obtain ⟨⟨⟨hk, hks⟩, hw⟩, hm⟩ := h'
    by_cases hak : a < k
    · by_cases hv : v = Config.memFill
      · simpa [Memory.write, hak, hv] using h
      · simp [Memory.write, Memory.wfFrom, hak, hv, hlo, ha, hks, hw, hm, Nat.succ_le_of_lt hak]
    · by_cases he : a = k
      · subst he
        by_cases hv : v = Config.memFill
        · simp only [Memory.write, lt_irrefl, if_false, if_true, hv]
          exact Memory.wfFrom_mono hm (by omega)
        · simp [Memory.write, Memory.wfFrom, hv, hlo, ha, hm]
      · simp [Memory.write, Memory.wfFrom, hak, he, hk, hks, hw, ih hm (by omega)]

/-- A write inside the address space keeps the canonical form. -/
theorem Memory.wf_write {a : Nat} {m : Memory} (v : Byte) (h : m.wf = true) (ha : a < Config.memSize) :
    (m.write a v).wf = true :=
  Memory.wfFrom_write v h (Nat.zero_le a) ha

/-- A load inside the address space keeps the canonical form. -/
theorem Memory.wf_load {bytes : List Byte} {m : Memory} {base : Nat} (h : m.wf = true)
    (hb : base + bytes.length ≤ Config.memSize) : (m.load base bytes).wf = true := by
  induction bytes generalizing m base with
  | nil => exact h
  | cons b bs ih =>
    simp only [List.length_cons] at hb
    exact ih (Memory.wf_write b h (by omega)) (by omega)

/-- The cells a load does not reach keep what they hold. -/
theorem Memory.read_load_outside {bytes : List Byte} {m : Memory} {base a : Nat}
    (h : a < base ∨ base + bytes.length ≤ a) : (m.load base bytes).read a = m.read a := by
  induction bytes generalizing m base with
  | nil => rfl
  | cons b bs ih =>
    simp only [List.length_cons] at h
    rw [Memory.load, ih (by omega), Memory.read_write_ne _ _ (by omega)]

/-- Byte `j` of the image lies at `base + j`. -/
theorem Memory.read_load_inside {bytes : List Byte} {m : Memory} {base j : Nat} (hm : m.wf = true)
    (hb : base + bytes.length ≤ Config.memSize) (hj : j < bytes.length) :
    (m.load base bytes).read (base + j) = bytes[j] := by
  induction bytes generalizing m base j with
  | nil => simp at hj
  | cons b bs ih =>
    simp only [List.length_cons] at hb hj
    have hw : (m.write base b).wf = true := Memory.wf_write b hm (by omega)
    cases j with
    | zero =>
      have outside := Memory.read_load_outside (bytes := bs) (m := m.write base b) (base := base + 1) (a := base) (.inl (by omega))
      simpa [Memory.load, outside] using Memory.read_write_same b hm
    | succ j =>
      have := ih (base := base + 1) (j := j) hw (by omega) (by omega)
      simpa [Memory.load, Nat.add_assoc, Nat.add_comm 1 j] using this

/-- The reset memory lists nothing, so it is canonical. -/
theorem reset_mem_wf : State.reset.mem.wf = true := rfl

end Sys2Proof.Machine
end

