-- ==== Sys2Proof/Laws/State.lean ====
section
/-! SUPPORT. One lemma per field per update of State, and the register file's read-after-write laws. -/

namespace Sys2Proof.Machine

variable (s : State) (i : RegIdx) (v : Byte) (k : FaultCause)

@[simp] theorem State.setReg_regs : (s.setReg i v).regs = s.regs.set i v := rfl
@[simp] theorem State.setReg_fl : (s.setReg i v).fl = s.fl := rfl
@[simp] theorem State.setReg_pc : (s.setReg i v).pc = s.pc := rfl
@[simp] theorem State.setReg_runState : (s.setReg i v).runState = s.runState := rfl
@[simp] theorem State.setReg_fault : (s.setReg i v).fault = s.fault := rfl
@[simp] theorem State.setReg_mem : (s.setReg i v).mem = s.mem := rfl
@[simp] theorem State.setReg_out : (s.setReg i v).out = s.out := rfl

@[simp] theorem State.setSp_regs : (s.setSp v).regs = s.regs.set 7 v := rfl
@[simp] theorem State.setSp_fl : (s.setSp v).fl = s.fl := rfl
@[simp] theorem State.setSp_pc : (s.setSp v).pc = s.pc := rfl
@[simp] theorem State.setSp_runState : (s.setSp v).runState = s.runState := rfl
@[simp] theorem State.setSp_fault : (s.setSp v).fault = s.fault := rfl
@[simp] theorem State.setSp_mem : (s.setSp v).mem = s.mem := rfl
@[simp] theorem State.setSp_out : (s.setSp v).out = s.out := rfl

@[simp] theorem State.setFl_regs : (s.setFl v).regs = s.regs := rfl
@[simp] theorem State.setFl_fl : (s.setFl v).fl = v := rfl
@[simp] theorem State.setFl_pc : (s.setFl v).pc = s.pc := rfl
@[simp] theorem State.setFl_runState : (s.setFl v).runState = s.runState := rfl
@[simp] theorem State.setFl_fault : (s.setFl v).fault = s.fault := rfl
@[simp] theorem State.setFl_mem : (s.setFl v).mem = s.mem := rfl
@[simp] theorem State.setFl_out : (s.setFl v).out = s.out := rfl

@[simp] theorem State.jumpTo_regs : (s.jumpTo v).regs = s.regs := rfl
@[simp] theorem State.jumpTo_fl : (s.jumpTo v).fl = s.fl := rfl
@[simp] theorem State.jumpTo_pc : (s.jumpTo v).pc = v.setWidth 9 := rfl
@[simp] theorem State.jumpTo_runState : (s.jumpTo v).runState = s.runState := rfl
@[simp] theorem State.jumpTo_fault : (s.jumpTo v).fault = s.fault := rfl
@[simp] theorem State.jumpTo_mem : (s.jumpTo v).mem = s.mem := rfl
@[simp] theorem State.jumpTo_out : (s.jumpTo v).out = s.out := rfl

@[simp] theorem State.emit_regs : (s.emit v).regs = s.regs := rfl
@[simp] theorem State.emit_fl : (s.emit v).fl = s.fl := rfl
@[simp] theorem State.emit_pc : (s.emit v).pc = s.pc := rfl
@[simp] theorem State.emit_runState : (s.emit v).runState = s.runState := rfl
@[simp] theorem State.emit_fault : (s.emit v).fault = s.fault := rfl
@[simp] theorem State.emit_mem : (s.emit v).mem = s.mem := rfl
@[simp] theorem State.emit_out : (s.emit v).out = s.out ++ [v] := rfl

@[simp] theorem State.raise_regs : (s.raise k).regs = s.regs := rfl
@[simp] theorem State.raise_fl : (s.raise k).fl = s.fl := rfl
@[simp] theorem State.raise_pc : (s.raise k).pc = s.pc := rfl
@[simp] theorem State.raise_runState : (s.raise k).runState = .faulted := rfl
@[simp] theorem State.raise_fault : (s.raise k).fault = some { cause := k, pc := s.pc } := rfl
@[simp] theorem State.raise_mem : (s.raise k).mem = s.mem := rfl
@[simp] theorem State.raise_out : (s.raise k).out = s.out := rfl

/-- `SP` is `x[7]` (10_state.md R22). -/
theorem State.sp_eq_reg : s.sp = s.reg 7 := rfl

theorem State.reg_eq_regs : s.reg i = s.regs[i] := rfl

@[simp] theorem State.reg_setReg_same : (s.setReg i v).reg i = v := by
  simp [State.reg, State.setReg]

theorem State.reg_setReg_ne {i j : RegIdx} (h : i ≠ j) : (s.setReg i v).reg j = s.reg j := by
  have h' : (i : Nat) ≠ (j : Nat) := fun e => h (Fin.ext e)
  simp [State.reg, State.setReg, h']

@[simp] theorem State.sp_setSp : (s.setSp v).sp = v :=
  State.reg_setReg_same s 7 v

@[simp] theorem State.jumpTo_reg : (s.jumpTo v).reg i = s.reg i := rfl
@[simp] theorem State.jumpTo_sp : (s.jumpTo v).sp = s.sp := rfl
@[simp] theorem State.emit_reg : (s.emit v).reg i = s.reg i := rfl
@[simp] theorem State.setFl_reg : (s.setFl v).reg i = s.reg i := rfl
@[simp] theorem State.raise_reg : (s.raise k).reg i = s.reg i := rfl

end Sys2Proof.Machine
end

