-- ==== Sys2Proof/Laws/Ops.lean ====
section
/-! SUPPORT. One lemma per shared operation that says everything it can do; meanings are reasoned about through these. -/

namespace Sys2Proof.Machine

variable {s s' : State}

/-- `SP` is a byte, so an access at `SP` is always in bounds (43_stack.md R152, 44_control_transfer.md R162). -/
@[simp] theorem State.memRead_byte (b : Byte) : s.memRead b.toNat = .ok (s.mem.read b.toNat) := by
  have := b.isLt
  simp [State.memRead]
  omega

@[simp] theorem State.memWrite_byte (b v : Byte) :
    s.memWrite b.toNat v = .ok { s with mem := s.mem.write b.toNat v } := by
  have := b.isLt
  simp [State.memWrite]
  omega

/-- `MemRead` at a natural-number address: the byte, or OutOfBoundsAccess from 256 on (00_scope.md R11). -/
theorem State.memRead_nat (a : Nat) :
    s.memRead a = if a ≤ 255 then .ok (s.mem.read a) else .error (.outOfBoundsAccess a) := by
  by_cases h : a ≤ 255
  · simp [State.memRead, h, show (a : Int) ≤ 255 by omega]
  · simp [State.memRead, h, show ¬ (a : Int) ≤ 255 by omega]

theorem State.decSp_cases :
    (s.sp = 0 ∧ s.decSp = .error (.outOfBoundsAccess (-1))) ∨
    (s.sp ≠ 0 ∧ s.decSp = .ok (s.setSp (s.sp - 1))) := by
  by_cases h : s.sp = 0
  · exact .inl ⟨h, if_pos h⟩
  · exact .inr ⟨h, if_neg h⟩

theorem State.incSp_cases :
    (s.sp = 255 ∧ s.incSp = .error (.outOfBoundsAccess 256)) ∨
    (s.sp ≠ 255 ∧ s.incSp = .ok (s.setSp (s.sp + 1))) := by
  by_cases h : s.sp = 255
  · exact .inl ⟨h, if_pos h⟩
  · exact .inr ⟨h, if_neg h⟩

theorem regOperand_of_lt {b : Byte} (h : b.toNat < 8) : regOperand b = .ok ⟨b.toNat, h⟩ := by
  simp [regOperand, h]

theorem regOperand_of_ge {b : Byte} (h : 8 ≤ b.toNat) : regOperand b = .error (.invalidRegister b) := by
  simp [regOperand, Nat.not_lt.mpr h]

theorem regOperand_cases (b : Byte) :
    (∃ h : b.toNat < 8, regOperand b = .ok ⟨b.toNat, h⟩) ∨
    (8 ≤ b.toNat ∧ regOperand b = .error (.invalidRegister b)) := by
  by_cases h : b.toNat < 8
  · exact .inl ⟨h, regOperand_of_lt h⟩
  · exact .inr ⟨Nat.not_lt.mp h, regOperand_of_ge (Nat.not_lt.mp h)⟩

@[simp] theorem finish_error (s : State) (k : FaultCause) : finish s (.error k) = .next (s.raise k) := rfl

@[simp] theorem finish_inc (s s' : State) (n : Nat) :
    finish s (.ok (s', .inc n)) = .next { s' with pc := s'.pc + BitVec.ofNat 9 n } := rfl

@[simp] theorem finish_halt (s s' : State) :
    finish s (.ok (s', .halt)) = .next { s' with runState := .halted } := rfl

/-- A handler's step never stops: it ends in a state, whatever the handler answers. -/
theorem finish_next (s : State) (r : Result) : ∃ t, finish s r = .next t := by
  match r with
  | .error k => exact ⟨_, rfl⟩
  | .ok (s', .inc n) => exact ⟨_, rfl⟩
  | .ok (s', .halt) => exact ⟨_, rfl⟩

/-- The fetch: three bytes at `pc` up to 253, otherwise OutOfBoundsAccess at the first address past 255
(40_dispatch_cycle.md R111). -/
theorem fetch_eq (s : State) :
    fetch s =
      if s.pc.toNat ≤ 253 then
        .ok (s.mem.read s.pc.toNat, s.mem.read (s.pc.toNat + 1), s.mem.read (s.pc.toNat + 2))
      else .error (.outOfBoundsAccess (max s.pc.toNat 256)) := by
  have h1 : ((s.pc.toNat : Int) + 1) = ((s.pc.toNat + 1 : Nat) : Int) := by simp
  have h2 : ((s.pc.toNat : Int) + 2) = ((s.pc.toNat + 2 : Nat) : Int) := by simp
  simp only [fetch, h1, h2, State.memRead_nat]
  by_cases h : s.pc.toNat ≤ 253
  · simp [h, show s.pc.toNat ≤ 255 by omega, show s.pc.toNat + 1 ≤ 255 by omega]
    rfl
  · rcases (by omega : s.pc.toNat = 254 ∨ s.pc.toNat = 255 ∨ 256 ≤ s.pc.toNat) with h' | h' | h'
    · simp [h']; rfl
    · simp [h']; rfl
    · simp [h, show ¬ s.pc.toNat ≤ 255 by omega]
      rw [show max (s.pc.toNat : Int) 256 = s.pc.toNat by omega]
      rfl

/-- The comparator's three answers (42_alu_compare.md R143). -/
theorem compareFlags_cases (p q : Byte) :
    (p = q ∧ compareFlags p q = flEqual) ∨ (q.toNat < p.toNat ∧ compareFlags p q = flGreater) ∨
    (p.toNat < q.toNat ∧ compareFlags p q = flLess) := by
  rcases Nat.lt_trichotomy p.toNat q.toNat with h | h | h
  · exact .inr (.inr ⟨h, by simp [compareFlags, Nat.ne_of_lt h, Nat.not_lt.mpr (Nat.le_of_lt h)]⟩)
  · exact .inl ⟨BitVec.eq_of_toNat_eq h, by simp [compareFlags, h]⟩
  · exact .inr (.inl ⟨h, by simp [compareFlags, Nat.ne_of_gt h, h]⟩)

end Sys2Proof.Machine
end

