-- ==== Sys2Proof/Laws/PerInstr.lean ====
section
/-! SUPPORT. Statements made once per instruction, about the instruction as syntax. -/

namespace Sys2Proof.Laws.OperandCount

/-- The encoding is `opcode[7:6] + 1` bytes long, so bits 7:6 of the opcode byte count the operand bytes
(30_encoding.md R82, R89 a). -/
def Statement (i : Instr) : Prop :=
  (encode i).length = opcodeSize i.opcode

theorem ldi (opA imm : Byte) : Statement (.ldi opA imm) := (Instr.size_ldi _ _).symm
theorem prn (opA : Byte) : Statement (.prn opA) := (Instr.size_prn _).symm
theorem hlt : Statement .hlt := (Instr.size_hlt).symm
theorem mul (opA opB : Byte) : Statement (.mul opA opB) := (Instr.size_mul _ _).symm
theorem add (opA opB : Byte) : Statement (.add opA opB) := (Instr.size_add _ _).symm
theorem cmp (opA opB : Byte) : Statement (.cmp opA opB) := (Instr.size_cmp _ _).symm
theorem push (opA : Byte) : Statement (.push opA) := (Instr.size_push _).symm
theorem pop (opA : Byte) : Statement (.pop opA) := (Instr.size_pop _).symm
theorem call (opA : Byte) : Statement (.call opA) := (Instr.size_call _).symm
theorem ret : Statement .ret := (Instr.size_ret).symm
theorem jmp (opA : Byte) : Statement (.jmp opA) := (Instr.size_jmp _).symm
theorem jeq (opA : Byte) : Statement (.jeq opA) := (Instr.size_jeq _).symm
theorem jne (opA : Byte) : Statement (.jne opA) := (Instr.size_jne _).symm

end Sys2Proof.Laws.OperandCount
end

