-- ==== Sys2Proof/Laws/Step.lean ====
section
/-! SUPPORT. What one step can do, the induction over runs, and that `withFetchWord` places what `step` runs. -/

namespace Sys2Proof.Machine

variable {s t : State}

/-- Every handler ends in a state. -/
theorem exec_next (i : Instr) (s : State) : ∃ t, exec i s = .next t := by
  cases i
  case hlt => exact ⟨_, rfl⟩
  all_goals exact finish_next s _

/-- What a step that answers a state did: raised in the fetch, raised at decode, or ran the decoded instruction
(40_dispatch_cycle.md R120). -/
theorem step_cases (h : step s = .next t) :
    s.runState = .running ∧
    ((∃ k, fetch s = .error k ∧ t = s.raise k) ∨
     (∃ op opA opB, fetch s = .ok (op, opA, opB) ∧
       ((∃ e, decode op opA opB = .error e ∧ t = s.raise (.invalidInstruction op)) ∨
        (∃ i, decode op opA opB = .ok i ∧ exec i s = .next t)))) := by
  cases hr : s.runState with
  | halted => simp [step, hr] at h
  | faulted => simp [step, hr] at h
  | running =>
    refine ⟨rfl, ?_⟩
    cases hf : fetch s with
    | error k =>
      simp only [step, hr, hf, Host.Outcome.next.injEq] at h
      exact .inl ⟨k, rfl, h.symm⟩
    | ok bytes =>
      obtain ⟨op, opA, opB⟩ := bytes
      refine .inr ⟨op, opA, opB, rfl, ?_⟩
      cases hd : decode op opA opB with
      | error e =>
        simp only [step, hr, hf, hd, Host.Outcome.next.injEq] at h
        exact .inl ⟨e, rfl, h.symm⟩
      | ok i =>
        simp only [step, hr, hf, hd] at h
        exact .inr ⟨i, rfl, h⟩

/-- What holds at every launch state and is kept by every step holds in every state of a run. -/
theorem Reachable.induction {image : List Byte} {P : State → Prop} (launch : P (State.launch image))
    (keeps : ∀ s t, P s → step s = .next t → P t) {s : State} (h : Reachable image s) : P s := by
  induction h with
  | launched => exact launch
  | stepped _ hstep ih => exact keeps _ _ ih hstep

theorem withFetchWord_running (s : State) (nbits w : Nat) : (s.withFetchWord nbits w).runState = .running := rfl

theorem withFetchWord_pc_le (s : State) (nbits w : Nat) : (s.withFetchWord nbits w).pc.toNat ≤ 253 := by
  by_cases h : s.pc.toNat ≤ 253
  · simp [State.withFetchWord, h]
  · simp [State.withFetchWord, h, Config.pcReset]

/-- The fetch after `withFetchWord` reads the word's three bytes. -/
theorem fetch_withFetchWord (s : State) (nbits w : Nat) (hm : s.mem.wf = true) :
    fetch (s.withFetchWord nbits w) =
      .ok (tableWordByte nbits w 0, tableWordByte nbits w 1, tableWordByte nbits w 2) := by
  have hpc := withFetchWord_pc_le s nbits w
  rw [fetch_eq, if_pos hpc]
  have read (j : Nat) (hj : j < 3) := Memory.read_load_inside (j := j) (base := (s.withFetchWord nbits w).pc.toNat)
    (bytes := [tableWordByte nbits w 0, tableWordByte nbits w 1, tableWordByte nbits w 2]) hm
    (by simp [Config.memSize]; omega) (by simpa using hj)
  have e : (s.withFetchWord nbits w).mem = s.mem.load (s.withFetchWord nbits w).pc.toNat
      [tableWordByte nbits w 0, tableWordByte nbits w 1, tableWordByte nbits w 2] := rfl
  have r0 := read 0 (by decide)
  rw [Nat.add_zero] at r0
  rw [e, r0, read 1 (by decide), read 2 (by decide)]
  rfl

/-- The step after `withFetchWord` runs exactly the instruction of the word (log 12). -/
theorem step_withFetchWord {nbits w : Nat} {i : Instr} (hm : s.mem.wf = true)
    (hi : decodeTableWord nbits w = some i) :
    step (s.withFetchWord nbits w) = exec i (s.withFetchWord nbits w) := by
  have hd : decode (tableWordByte nbits w 0) (tableWordByte nbits w 1) (tableWordByte nbits w 2) = .ok i := by
    unfold decodeTableWord at hi
    split at hi
    · next j hj => rw [hj, Option.some.inj hi]
    · simp at hi
  simp [step, withFetchWord_running, fetch_withFetchWord s nbits w hm, hd]

end Sys2Proof.Machine
end

