-- ==== Sys2Proof/Tests/Slice0.lean ====
section
/-! SUPPORT. Tests with expected results from the spec: ill-formed terms, decoding of words written out from
30_encoding.md R81 and R86, single steps from the vectors of 95_test_vectors.md, and a witness for the hypotheses of each
statement. -/

namespace Sys2Proof.Tests

open Sys2Proof.Machine

/-- The state an outcome answers, if it answers one. -/
def nextState : Host.Outcome State Fault Refusal → Option State
  | .next t => some t
  | .fault _ => none
  | .refused _ => none

/-- The reset state with the given registers. -/
def withRegs (x0 x1 x2 x3 x4 x5 x6 x7 : Byte) : State :=
  { State.reset with regs := #v[x0, x1, x2, x3, x4, x5, x6, x7] }

/-- The reset state with the given `SP` and memory. -/
def withStack (sp : Byte) (mem : Memory) : State :=
  { withRegs 0 0 0 0 0 0 0 sp with mem := mem }

/-- The fault an outcome's state records. -/
def recorded (o : Host.Outcome State Fault Refusal) : Option FaultRecord :=
  (nextState o).bind State.fault

/-! ## WellFormed: an ill-formed term for each check (30_encoding.md R84) -/

theorem test_wf_accepts : (Instr.ldi 7 0xFF).wf = true ∧ (Instr.cmp 0 7).wf = true ∧ Instr.hlt.wf = true := by decide
theorem test_wf_refuses_ldi : (Instr.ldi 8 0).wf = false := by decide
theorem test_wf_refuses_prn : (Instr.prn 0xFF).wf = false := by decide
theorem test_wf_refuses_mul : (Instr.mul 8 0).wf = false ∧ (Instr.mul 0 8).wf = false := by decide
theorem test_wf_refuses_add : (Instr.add 9 8).wf = false ∧ (Instr.add 0 8).wf = false := by decide
theorem test_wf_refuses_cmp : (Instr.cmp 8 0).wf = false ∧ (Instr.cmp 0 8).wf = false := by decide
theorem test_wf_refuses_push : (Instr.push 8).wf = false := by decide
theorem test_wf_refuses_pop : (Instr.pop 8).wf = false := by decide
theorem test_wf_refuses_call : (Instr.call 8).wf = false := by decide
theorem test_wf_refuses_jmp : (Instr.jmp 8).wf = false := by decide
theorem test_wf_refuses_jeq : (Instr.jeq 9).wf = false := by decide
theorem test_wf_refuses_jne : (Instr.jne 8).wf = false := by decide

/-! ## Decoding: words written out bit by bit from R81 and R86 -/

theorem test_decode_ldi : decode 0b10000010 0b00000101 0b11111111 = .ok (.ldi 5 255) := rfl
theorem test_decode_prn : decode 0b01000111 0b00000011 0b00000001 = .ok (.prn 3) := rfl
theorem test_decode_hlt : decode 0b00000001 0b10000010 0b00000000 = .ok .hlt := rfl
theorem test_decode_mul : decode 0b10100010 0b00000001 0b00000110 = .ok (.mul 1 6) := rfl
theorem test_decode_add : decode 0b10100000 0b00000010 0b00000011 = .ok (.add 2 3) := rfl
theorem test_decode_cmp : decode 0b10100111 0b00000010 0b00000011 = .ok (.cmp 2 3) := rfl
theorem test_decode_push : decode 0b01000101 0b00000111 0b00000001 = .ok (.push 7) := rfl
theorem test_decode_pop : decode 0b01000110 0b00000001 0b00000000 = .ok (.pop 1) := rfl
theorem test_decode_call : decode 0b01010000 0b00000001 0b00000000 = .ok (.call 1) := rfl
theorem test_decode_ret : decode 0b00010001 0b00000000 0b00000000 = .ok .ret := rfl
theorem test_decode_jmp : decode 0b01010100 0b00000100 0b00000000 = .ok (.jmp 4) := rfl
theorem test_decode_jeq : decode 0b01010101 0b00000011 0b00000000 = .ok (.jeq 3) := rfl
theorem test_decode_jne : decode 0b01010110 0b00000100 0b00000000 = .ok (.jne 4) := rfl

/-- The illegal neighbours of 95_test_vectors.md section 2.1. -/
theorem test_decode_illegal :
    [0x00, 0x02, 0x10, 0x44, 0x57, 0x83, 0xA1, 0xC0, 0xFF].all (fun op : Byte => !legalOpcode op) = true := by decide

/-- `LDI R0,8` is `82 00 08` (R95); its table word has the first byte lowest. -/
theorem test_table_word : decodeTableWord 24 0x080082 = some (.ldi 0 8) ∧ encode (.ldi 0 8) = [0x82, 0x00, 0x08] := by
  decide
/-- The bits above `nbits` count as 0. -/
theorem test_table_word_short : decodeTableWord 8 0xFF82 = some (.ldi 0 0) := by decide
/-- A byte sequence that ends inside an instruction, and one with bytes left. -/
theorem test_decode_bytes : decodeBytes [0x47, 0x00, 0x01] = .ok (.prn 0, [0x01]) ∧
    decodeBytes [0x82, 0x00] = .error .truncated ∧ decodeBytes [] = .error .truncated := ⟨rfl, rfl, rfl⟩

/-! ## Single instructions, from the vectors named -/

theorem test_ldi_L2 : (nextState (exec (.ldi 5 0xFF) State.reset)).map (fun t => (t.regs[5], t.pc)) = some (255, 3) := by
  decide
theorem test_ldi_L5 : recorded (exec (.ldi 8 1) State.reset) = some ⟨.invalidRegister 8, 0⟩ := by decide
theorem test_prn_L7 : (nextState (exec (.prn 7) State.reset)).map (fun t => (t.out, t.pc)) = some ([244], 2) := by decide
theorem test_prn_L9 : (nextState (exec (.prn 255) State.reset)).map (fun t => (t.out, t.runState)) =
    some ([], .faulted) := by decide
theorem test_hlt_L10 : (nextState (exec .hlt State.reset)).map (fun t => (t.runState, t.pc, t.fault)) =
    some (.halted, 0, none) := by decide
theorem test_mul_M5 : (nextState (exec (.mul 0 1) (withRegs 255 255 0 0 0 0 0 0xF4))).map (fun t => t.regs[0]) =
    some 1 := by decide
theorem test_mul_M8 : (nextState (exec (.mul 0 0) (withRegs 12 0 0 0 0 0 0 0xF4))).map (fun t => t.regs[0]) =
    some 144 := by decide
theorem test_add_A4 : (nextState (exec (.add 2 3) (withRegs 0 0 200 100 0 0 0 0xF4))).map
    (fun t => (t.regs[2], t.regs[3], t.pc)) = some (44, 100, 3) := by decide
theorem test_add_A12 : recorded (exec (.add 9 8) State.reset) = some ⟨.invalidRegister 9, 0⟩ := by decide
theorem test_cmp_C4 : (nextState (exec (.cmp 0 1) (withRegs 200 100 0 0 0 0 0 0xF4))).map (fun t => t.fl) =
    some 0b010 := by decide
theorem test_cmp_C8 : (nextState (exec (.cmp 0 1) { withRegs 5 5 0 0 0 0 0 0xF4 with fl := 0b100 })).map
    (fun t => (t.fl, t.pc)) = some (0b001, 3) := by decide
theorem test_push_K2 : (nextState (exec (.push 0) (withRegs 9 0 0 0 0 0 0 1))).map
    (fun t => (t.sp, t.mem.read 0, t.pc)) = some (0, 9, 2) := by decide
theorem test_push_K4 : (nextState (exec (.push 7) State.reset)).map (fun t => (t.sp, t.mem.read 0xF3)) =
    some (0xF3, 0xF3) := by decide
theorem test_pop_K10 : (nextState (exec (.pop 7) (withStack 0xF3 [(0xF3, 0x20)]))).map (fun t => (t.sp, t.pc)) =
    some (0x21, 2) := by decide
theorem test_pop_K12 : (nextState (exec (.pop 7) (withStack 255 [(255, 4)]))).map (fun t => (t.sp, t.fault)) =
    some (5, none) := by decide
theorem test_call_T2 : (nextState (exec (.call 0) { withRegs 0x10 0 0 0 0 0 0 0xF4 with pc := 253 })).map
    (fun t => (t.sp, t.mem.read 0xF3, t.pc)) = some (0xF3, 0xFF, 0x10) := by decide
theorem test_call_T4 : (nextState (exec (.call 7) State.reset)).map (fun t => (t.sp, t.mem.read 0xF3, t.pc)) =
    some (0xF3, 0x02, 0xF3) := by decide
theorem test_ret_T5 : (nextState (exec .ret { withStack 0xF3 [(0xF3, 0x08)] with pc := 0x0E })).map
    (fun t => (t.pc, t.sp)) = some (0x08, 0xF4) := by decide
theorem test_ret_T7 : (nextState (exec .ret (withStack 255 []))).map (fun t => (t.fault, t.pc, t.sp)) =
    some (some ⟨.outOfBoundsAccess 256, 0⟩, 0, 255) := by decide
theorem test_jmp_T8 : (nextState (exec (.jmp 4) { withRegs 0 0 0 0 0x0F 0 0 0xF4 with pc := 0x18 })).map
    (fun t => t.pc) = some 0x0F := by decide
theorem test_jeq_T12 : (nextState (exec (.jeq 3) { withRegs 0 0 0 0x13 0 0 0 0xF4 with fl := 0b001 })).map
    (fun t => t.pc) = some 0x13 := by decide
theorem test_jeq_T20 : recorded (exec (.jeq 9) State.reset) = some ⟨.invalidRegister 9, 0⟩ := by decide
theorem test_jne_T18 : (nextState (exec (.jne 4) { withRegs 0 0 0 0 0x0F 0 0 0xF4 with fl := 0b001 })).map
    (fun t => t.pc) = some 2 := by decide
theorem test_jne_T19 : (nextState (exec (.jne 4) (withRegs 0 0 0 0 0x0F 0 0 0xF4))).map (fun t => t.pc) =
    some 0x0F := by decide

/-! ## Single steps of the machine -/

/-- X11: an illegal opcode at the entry point. -/
theorem test_step_X11 : recorded (step (State.launch [0xC0])) = some ⟨.invalidInstruction 0xC0, 0⟩ := by decide
/-- X18, X19: unloaded memory is no NOP. -/
theorem test_step_X19 : recorded (step (State.launch [])) = some ⟨.invalidInstruction 0x00, 0⟩ := by decide
/-- L1, from a loaded image. -/
theorem test_step_L1 : (nextState (step (State.launch [0x82, 0x00, 0x08]))).map (fun t => (t.regs[0], t.pc)) =
    some (8, 3) := by decide
/-- X5b: a HLT at 254 is never decoded. -/
theorem test_step_X5b : recorded (step { withStack 0xF4 [(254, 1)] with pc := 254 }) =
    some ⟨.outOfBoundsAccess 256, 254⟩ := by decide
/-- K5: the register check comes before the stack-pointer check. -/
theorem test_step_K5 : recorded (step { withStack 0 [(0, 0x45), (1, 8)] with pc := 0 }) =
    some ⟨.invalidRegister 8, 0⟩ := by decide
/-- X16b: an image of 257 bytes is refused, memory all zero. -/
theorem test_load_X16b : (State.launch (0x01 :: List.replicate 256 0x00)).fault = some ⟨.outOfBoundsAccess 256, 0⟩ ∧
    (State.launch (0x01 :: List.replicate 256 0x00)).mem = [] := by decide +kernel
/-- Writing the fill value removes the cell. -/
theorem test_write_fill : Memory.write [(3, 7)] 3 0 = [] ∧ Memory.write [(3, 7)] 1 9 = [(1, 9), (3, 7)] := by decide
/-- The word placed by the host is the one the next step runs. -/
theorem test_withFetchWord : (nextState (step (State.reset.withFetchWord 24 0x080082))).map (fun t => t.regs[0]) =
    some 8 := by decide
/-- The fault codes of 60_exceptions.md R180. -/
theorem test_fault_code : State.reset.faultCode = 0 ∧ (State.reset.raise (.invalidInstruction 0)).faultCode = 1 ∧
    (State.reset.raise (.outOfBoundsAccess 256)).faultCode = 2 ∧
    (State.reset.raise (.invalidRegister 8)).faultCode = 3 := by decide

/-! ## Witnesses: for each statement with hypotheses, states and operands that meet them, at a clause's boundary -/

theorem witness_EncodeInvertsDecode : decode 0x82 0xFF 0xFF = .ok (.ldi 0xFF 0xFF) := rfl
theorem witness_IllegalOpcodeBytesCounted : (0xC0 : Byte).extractLsb' 6 2 = 0b11 := by decide
theorem witness_StepExistsExactlyWhileRunning : State.reset.runState = .running ∧
    (nextState (step State.reset)).isSome = true := by decide
theorem witness_TerminalStatesStopByName :
    ({ State.reset with runState := .halted } : State).runState = .halted ∧
    (State.reset.raise (.invalidRegister 8)).runState = .faulted := by decide
/-- A HLT at 253, the last address an instruction runs at. -/
theorem witness_StepRunsDecodedInstruction : ∃ s : State, s.runState = .running ∧ s.pc.toNat = 253 ∧
    decode (s.mem.read s.pc.toNat) (s.mem.read (s.pc.toNat + 1)) (s.mem.read (s.pc.toNat + 2)) = .ok .hlt :=
  ⟨{ withStack 0xF4 [(253, 1)] with pc := 253 }, rfl, rfl, rfl⟩
theorem witness_FetchNearTopFaults :
    (∀ p ∈ [(254 : Pc), 255, 256], ({ State.reset with pc := p } : State).runState = .running ∧
      254 ≤ p.toNat ∧ p.toNat ≤ 256) := by decide
theorem witness_IllegalOpcodeFaults : ∃ s : State, s.runState = .running ∧ s.pc.toNat = 253 ∧
    legalOpcode (s.mem.read s.pc.toNat) = false :=
  ⟨{ withStack 0xF4 [(253, 0x57)] with pc := 253 }, by decide⟩
theorem witness_FaultEntryWritesOnlyRunStateAndFault :
    (nextState (step State.reset)).map State.runState = some .faulted := by decide
theorem witness_StepFaultsExactlyInPriorityOrder : State.reset.runState = .running ∧ State.reset.pc.toNat ≤ 256 ∧
    State.reset.expectedFault = some (.invalidInstruction 0) ∧
    (State.launch [0x01]).expectedFault = none ∧
    ({ State.reset with pc := 256 } : State).expectedFault = some (.outOfBoundsAccess 256) := by decide
theorem witness_InvalidRegisterOperandFaults :
    (Instr.add 7 8).regOperands.find? (fun b => decide (8 ≤ b.toNat)) = some 8 ∧
    (Instr.add 9 8).regOperands.find? (fun b => decide (8 ≤ b.toNat)) = some 9 ∧
    (Instr.jeq 8).regOperands.find? (fun b => decide (8 ≤ b.toNat)) = some 8 := by decide
theorem witness_HaltedExactlyByHlt : (nextState (step (State.launch [0x01]))).map State.runState = some .halted := by
  decide
theorem witness_UnsupportedAluNeverRaised : (nextState (step State.reset)).isSome = true ∧
    State.reset.fault ≠ some ⟨.unsupportedAluOperation, 0⟩ := by decide
/-- The two clauses of LdiLoadsImmediate, PrnEmitsRegister, JmpJumpsToRegister, JeqJumpsIfEqualFlag and
JneJumpsIfEqualFlagClear: 7 is the last register, 8 the first byte that is none. -/
theorem witness_OneRegisterOperand : (7 : Byte).toNat < 8 ∧ 8 ≤ (8 : Byte).toNat := by decide
/-- The three clauses of MulKeepsLowEightBits, AddKeepsLowEightBits and CmpWritesComparison. -/
theorem witness_TwoRegisterOperands : ((7 : Byte).toNat < 8 ∧ (0 : Byte).toNat < 8) ∧ 8 ≤ (8 : Byte).toNat ∧
    ((7 : Byte).toNat < 8 ∧ 8 ≤ (8 : Byte).toNat) := by decide
/-- PUSH at `SP` = 1 and at `SP` = 0, and a byte that is no register. -/
theorem witness_PushStoresAtDecrementedSp :
    ((7 : Byte).toNat < 8 ∧ (withStack 1 []).mem.wf = true ∧ (withStack 1 []).sp ≠ 0) ∧
    ((0 : Byte).toNat < 8 ∧ (withStack 0 []).sp = 0) ∧ 8 ≤ (8 : Byte).toNat := by decide
/-- POP at `SP` = 254 and 255, POP R7 with 254 and 255 loaded, and a byte that is no register. -/
theorem witness_PopLoadsFromSp :
    ((6 : Byte).toNat < 8 ∧ (6 : Byte) ≠ 7 ∧ (withStack 254 []).sp ≠ 255) ∧
    (withStack 255 [(255, 254)]).mem.read (withStack 255 [(255, 254)]).sp.toNat ≠ 255 ∧
    ((6 : Byte).toNat < 8 ∧ (6 : Byte) ≠ 7 ∧ (withStack 255 []).sp = 255) ∧
    (withStack 0xF3 [(0xF3, 255)]).mem.read (withStack 0xF3 [(0xF3, 255)]).sp.toNat = 255 ∧
    8 ≤ (8 : Byte).toNat := by decide
/-- CALL at `pc` = 253 with `SP` = 1, at `SP` = 0, and a byte that is no register. -/
theorem witness_CallPushesReturnAddress :
    ((7 : Byte).toNat < 8 ∧ ({ withStack 1 [] with pc := 253 } : State).mem.wf = true ∧
      ({ withStack 1 [] with pc := 253 } : State).pc.toNat ≤ 253 ∧ ({ withStack 1 [] with pc := 253 } : State).sp ≠ 0) ∧
    ((0 : Byte).toNat < 8 ∧ (withStack 0 []).sp = 0) ∧ 8 ≤ (8 : Byte).toNat := by decide
theorem witness_RetJumpsToPoppedByte : (withStack 254 []).sp ≠ 255 ∧ (withStack 255 []).sp = 255 := by decide
/-- A POP R1 writes R1 and R7 and reads R7: R0 is in neither column, R1 is written and not read. -/
theorem witness_RegistersUsedAsTable : (nextState (exec (.pop 1) State.reset)).isSome = true ∧
    BitVec.ofNat 8 (0 : RegIdx).val ∉ (Instr.pop 1).written ∧
    BitVec.ofNat 8 (1 : RegIdx).val ∉ (Instr.pop 1).readRegs (State.reset.fl.getLsbD 0) := by decide
/-- `FL` = 0b010 and `FL` = 0b100 agree on bit 0; a JMP is neither CMP nor JEQ nor JNE. -/
theorem witness_FlagsWrittenByCmpReadByConditionalJumps : (nextState (exec (.jmp 0) State.reset)).isSome = true ∧
    (∀ opA opB, Instr.jmp 0 ≠ .cmp opA opB) ∧ (0b010 : Byte).getLsbD 0 = (0b100 : Byte).getLsbD 0 :=
  ⟨by decide, by simp, by decide⟩
/-- A PUSH at `SP` = 1 stores at 0, so address 1 is another byte; an LDI is neither PUSH nor CALL. -/
theorem witness_MemoryWrittenOnlyByPushAndCall : (nextState (exec (.push 0) (withStack 1 []))).isSome = true ∧
    1 ≠ ((withStack 1 []).sp - 1).toNat ∧ (∀ opA, Instr.ldi 0 0 ≠ .push opA) ∧ (∀ opA, Instr.ldi 0 0 ≠ .call opA) :=
  ⟨by decide, by decide, by simp, by simp⟩
/-- Two memories that differ, and agree at `SP`. -/
theorem witness_MemoryReadAsDataOnlyByPopAndRet : (nextState (exec .ret State.reset)).isSome = true ∧
    Memory.read [(0, 1)] State.reset.sp.toNat = State.reset.mem.read State.reset.sp.toNat := by decide
theorem witness_OutputGrowsOnlyByPrn : (nextState (exec (.prn 0) State.reset)).map State.out = some [0] := by decide
theorem witness_RunStateChangedOnlyByRaiseAndHlt : (nextState (exec (.ldi 0 1) State.reset)).isSome = true := by decide
theorem witness_IncrementAsTable : State.reset.runState = .running ∧
    (nextState (exec (.call 0) State.reset)).map State.runState = some .running := by decide
theorem witness_ZeroSpResetMakesFirstPushFault : (⟨0, 0, 0⟩ : Config.ResetParams).spReset = 0 ∧
    (7 : Byte).toNat < 8 := by decide
/-- An image of 256 bytes is loaded, one of 257 refused. -/
theorem witness_LoadPlacesImageOrRefuses : State.reset.mem.wf = true ∧ (List.replicate 256 (0 : Byte)).length ≤ 256 ∧
    256 < (List.replicate 257 (0 : Byte)).length := by decide +kernel
/-- A launch state that meets the invariant and has a step. -/
theorem witness_StepKeepsInvariant : (State.launch [0x01]).Inv ∧
    (nextState (step (State.launch [0x01]))).isSome = true := by
  refine ⟨⟨by decide, by decide, by decide, by decide, ?_⟩, by decide⟩
  intro f hf
  cases hf
/-- A PUSH of R7 is well-formed, and keeps a record that stands in the state. -/
theorem witness_WellFormedNeverRaisesInvalidRegister : (Instr.push 7).wf = true ∧
    recorded (exec (.push 7) (State.reset.raise (.invalidRegister 8))) = some ⟨.invalidRegister 8, 0⟩ := by decide
/-- The run of a one-byte image that holds HLT completes. -/
theorem witness_CompletedRunHasNoFaultAndNoStep : ∃ s, Reachable [0x01] s ∧ s.completed = true :=
  ⟨_, .stepped .launched rfl, rfl⟩
theorem witness_ReachableValuesAsStated : Reachable [] (State.launch []) ∧
    (nextState (step (State.launch []))).bind State.fault = some ⟨.invalidInstruction 0, 0⟩ :=
  ⟨.launched, by decide⟩
theorem witness_ExactlyOneFlagAfterCompare : ((7 : Byte).toNat < 8 ∧ (0 : Byte).toNat < 8 ∧
    (nextState (exec (.cmp 7 0) State.reset)).map State.fl = some 2) ∧
    (nextState (step { State.reset with fl := 4 })).isSome = true := by decide
theorem witness_CanonicalMemoriesReadingAlikeAreEqual : Memory.wf [(0, 1), (255, 2)] = true ∧
    Memory.wf (Memory.write (Memory.write [] 255 2) 0 1) = true := by decide
theorem witness_PushThenPopIsInverse : (6 : Byte).toNat < 7 ∧ (0 : Byte).toNat < 7 ∧
    (withStack 1 []).mem.wf = true ∧ (withStack 1 []).sp ≠ 0 := by decide
/-- The state CALL leaves is itself one whose `SP` and cell are as CALL left them. -/
theorem witness_RetResumesAfterCall : (0 : Byte).toNat < 8 ∧ State.reset.mem.wf = true ∧ State.reset.pc.toNat ≤ 253 ∧
    State.reset.sp ≠ 0 ∧ (nextState (exec (.call 0) State.reset)).map State.sp = some 0xF3 := by decide
theorem witness_ConditionalJumpsFollowCompare : (0 : Byte).toNat < 8 ∧ (1 : Byte).toNat < 8 ∧ (7 : Byte).toNat < 8 := by
  decide
theorem witness_FetchSeesPushedByte : (7 : Byte).toNat < 8 ∧ (withStack 254 []).mem.wf = true ∧
    (withStack 254 []).sp ≠ 0 ∧ (nextState (exec (.push 7) (withStack 254 []))).isSome = true ∧
    (253 : Pc).toNat = ((withStack 254 []).sp - 1).toNat ∧ (253 : Pc).toNat ≤ 253 := by decide
theorem witness_JumpNearTopFaultsAtNextFetch : (0 : Byte).toNat < 8 ∧
    (withRegs 254 0 0 0 0 0 0 0xF4).runState = .running ∧ 254 ≤ (withRegs 254 0 0 0 0 0 0 0xF4).regs[0].toNat := by decide

end Sys2Proof.Tests
end

/-! The handlers between a raise and HLT leave RUNSTATE and FAULT alone, so a step that ends FAULTED has raised
(00_scope.md R13, 60_exceptions.md R189, R190). -/

namespace Sys2Proof.Machine

variable {s s' t : State} {α : Type}

/-! ## What the state operations answer when they do not raise -/

theorem State.eq_of_decSp_eq_ok (h : s.decSp = .ok s') : s' = s.setSp (s.sp - 1) := by
  obtain ⟨-, hraise⟩ | ⟨-, hok⟩ := s.decSp_cases
  · cases hraise.symm.trans h
  · exact Except.ok.inj (h.symm.trans hok)

theorem State.eq_of_incSp_eq_ok (h : s.incSp = .ok s') : s' = s.setSp (s.sp + 1) := by
  obtain ⟨-, hraise⟩ | ⟨-, hok⟩ := s.incSp_cases
  · cases hraise.symm.trans h
  · exact Except.ok.inj (h.symm.trans hok)

theorem State.eq_of_memWrite_byte_eq_ok {b v : Byte} (h : s.memWrite b.toNat v = .ok s') :
    s' = { s with mem := s.mem.write b.toNat v } :=
  Except.ok.inj (h.symm.trans (State.memWrite_byte b v))

/-! ## Handlers that raise or go on -/

/-- The handler's answer is a raise, or an increment together with a state whose RUNSTATE and FAULT are those of `s`
(40_dispatch_cycle.md R113; 10_state.md R31, R32). -/
def Result.RaisesOrAdvances (s : State) (r : Result) : Prop :=
  ∀ s' y, r = .ok (s', y) → y ≠ .halt ∧ s'.runState = s.runState ∧ s'.fault = s.fault

theorem Result.RaisesOrAdvances.inc {n : Nat} (hrun : s'.runState = s.runState) (hfault : s'.fault = s.fault) :
    Result.RaisesOrAdvances s (pure (s', .inc n)) := by
  intro u y h
  cases h
  exact ⟨nofun, hrun, hfault⟩

/-- A part of a handler that may raise, followed by a rest that raises or advances. -/
theorem Result.RaisesOrAdvances.bind {x : Except FaultCause α} {f : α → Result}
    (h : ∀ a, x = .ok a → Result.RaisesOrAdvances s (f a)) : Result.RaisesOrAdvances s (x >>= f) := by
  cases x with
  | error k => exact nofun
  | ok a => exact h a rfl

theorem finish_of_raisesOrAdvances {r : Result} (hr : r.RaisesOrAdvances s) (h : finish s r = .next t) :
    (∃ k, t = s.raise k) ∨ (t.runState = s.runState ∧ t.fault = s.fault) := by
  match r with
  | .error k =>
    cases h
    exact .inl ⟨k, rfl⟩
  | .ok (u, .inc n) =>
    cases h
    exact .inr (hr u _ rfl).2
  | .ok (u, .halt) => exact absurd rfl (hr u _ rfl).1

/-- HLT apart, every instruction is a handler that raises or advances. -/
theorem exec_eq_finish_raisesOrAdvances {i : Instr} (hi : i ≠ .hlt) (s : State) :
    ∃ r : Result, exec i s = finish s r ∧ r.RaisesOrAdvances s := by
  cases i with
  | hlt => exact absurd rfl hi
  | ldi | prn | jmp => exact ⟨_, rfl, .bind fun _ _ => .inc rfl rfl⟩
  | mul | add | cmp => exact ⟨_, rfl, .bind fun _ _ => .bind fun _ _ => .inc rfl rfl⟩
  | push | call =>
    refine ⟨_, rfl, .bind fun _ _ => .bind fun s₁ h₁ => .bind fun s₂ h₂ => ?_⟩
    cases State.eq_of_decSp_eq_ok h₁
    cases State.eq_of_memWrite_byte_eq_ok h₂
    exact .inc rfl rfl
  | pop =>
    refine ⟨_, rfl, .bind fun _ _ => .bind fun _ _ => .bind fun s₁ h₁ => ?_⟩
    cases State.eq_of_incSp_eq_ok h₁
    exact .inc rfl rfl
  | ret =>
    refine ⟨_, rfl, .bind fun _ _ => .bind fun s₁ h₁ => ?_⟩
    cases State.eq_of_incSp_eq_ok h₁
    exact .inc rfl rfl
  | jeq | jne =>
    refine ⟨_, rfl, .bind fun _ _ => ?_⟩
    split <;> exact .inc rfl rfl

/-- The three things an instruction can do to RUNSTATE and FAULT (10_state.md R31, R32). -/
theorem exec_runState_cases {i : Instr} (h : exec i s = .next t) :
    (∃ k, t = s.raise k) ∨ (i = .hlt ∧ t = { s with runState := .halted }) ∨
    (i ≠ .hlt ∧ t.runState = s.runState ∧ t.fault = s.fault) := by
  by_cases hi : i = .hlt
  · subst hi
    cases h
    exact .inr (.inl ⟨rfl, rfl⟩)
  · obtain ⟨r, hexec, hr⟩ := exec_eq_finish_raisesOrAdvances hi s
    exact (finish_of_raisesOrAdvances hr (hexec ▸ h)).imp_right fun hkeep => .inr ⟨hi, hkeep⟩

/-- An instruction that takes a RUNNING core to FAULTED has raised. -/
theorem exec_faulted_eq_raise {i : Instr} (hrun : s.runState = .running) (h : exec i s = .next t)
    (ht : t.runState = .faulted) : ∃ k, t = s.raise k := by
  obtain hraise | ⟨-, rfl⟩ | ⟨-, hkeep, -⟩ := exec_runState_cases h
  · exact hraise
  · cases ht
  · rw [hkeep, hrun] at ht
    cases ht

/-- Settles O10: a step raises in the fetch, at decode or in the handler, and `raise` writes RUNSTATE and FAULT only. -/
theorem faultEntryWritesOnlyRunStateAndFault : Obligations.FaultEntryWritesOnlyRunStateAndFault := by
  intro s t hstep ht
  obtain ⟨hrun, ⟨k, -, rfl⟩ | ⟨op, _, _, -, ⟨_, -, rfl⟩ | ⟨i, -, hexec⟩⟩⟩ := step_cases hstep
  · exact ⟨k, rfl⟩
  · exact ⟨.invalidInstruction op, rfl⟩
  · exact exec_faulted_eq_raise hrun hexec ht

end Sys2Proof.Machine

/-! What an instruction does, as one total function: a handler's raise is the fault the spec's list names, and
otherwise its next state is `Instr.effect` (60_exceptions.md R199; 40_dispatch_cycle.md R113 to R115). -/

namespace Sys2Proof.Machine

variable {b : Byte}

/-! ## Register operands and the rest of a handler after a check -/

/-- The register a valid operand byte names (30_encoding.md R84); only used of bytes below 8. -/
def regIdx (b : Byte) : RegIdx := Fin.ofNat 8 b.toNat

theorem regIdx_of_lt (h : b.toNat < 8) : regIdx b = ⟨b.toNat, h⟩ :=
  Fin.ext (Nat.mod_eq_of_lt h)

theorem ofNat_regIdx_of_lt (h : b.toNat < 8) : BitVec.ofNat 8 (regIdx b).val = b := by
  simp [regIdx_of_lt h]

/-- A register that a valid operand byte does not name. -/
theorem regIdx_ne (h : b.toNat < 8) {r : RegIdx} (hr : BitVec.ofNat 8 r.val ≠ b) : regIdx b ≠ r := by
  rintro rfl
  exact hr (ofNat_regIdx_of_lt h)

/-- `pc <- pc + n`, the advance of 40_dispatch_cycle.md R114. -/
def State.advance (s : State) (n : Nat) : State :=
  { s with pc := s.pc + BitVec.ofNat 9 n }

/-- `MEM[SP] <- v` (20_memory.md R57). -/
def State.storeAtSp (s : State) (v : Byte) : State :=
  { s with mem := s.mem.write s.sp.toNat v }

@[simp] theorem State.advance_zero (s : State) : s.advance 0 = s := by
  simp [State.advance]

theorem State.storeAtSp_setSp_mem (s : State) (b v : Byte) :
    ((s.setSp b).storeAtSp v).mem = s.mem.write b.toNat v := by
  simp [State.storeAtSp]

theorem finish_inc_eq_advance (s s' : State) (n : Nat) : finish s (pure (s', .inc n)) = .next (s'.advance n) := rfl

theorem finish_regOperand_bind (s : State) (b : Byte) (f : RegIdx → Result) :
    finish s (regOperand b >>= f) =
      if b.toNat < 8 then finish s (f (regIdx b)) else .next (s.raise (.invalidRegister b)) := by
  obtain ⟨h, hok⟩ | ⟨h, herr⟩ := regOperand_cases b
  · rw [hok, if_pos h, regIdx_of_lt h]
    rfl
  · rw [herr, if_neg (Nat.not_lt.mpr h)]
    rfl

theorem finish_decSp_bind (s s₁ : State) (f : State → Result) :
    finish s (s₁.decSp >>= f) =
      if s₁.sp = 0 then .next (s.raise (.outOfBoundsAccess (-1))) else finish s (f (s₁.setSp (s₁.sp - 1))) := by
  obtain ⟨h, herr⟩ | ⟨h, hok⟩ := s₁.decSp_cases
  · rw [herr, if_pos h]
    rfl
  · rw [hok, if_neg h]
    rfl

theorem finish_incSp_bind (s s₁ : State) (f : State → Result) :
    finish s (s₁.incSp >>= f) =
      if s₁.sp = 255 then .next (s.raise (.outOfBoundsAccess 256)) else finish s (f (s₁.setSp (s₁.sp + 1))) := by
  obtain ⟨h, herr⟩ | ⟨h, hok⟩ := s₁.incSp_cases
  · rw [herr, if_pos h]
    rfl
  · rw [hok, if_neg h]
    rfl

theorem finish_memRead_byte_bind (s s₁ : State) (b : Byte) (f : Byte → Result) :
    finish s (s₁.memRead b.toNat >>= f) = finish s (f (s₁.mem.read b.toNat)) := by
  rw [State.memRead_byte]
  rfl

theorem finish_memWrite_sp_bind (s s₁ : State) (v : Byte) (f : State → Result) :
    finish s (s₁.memWrite s₁.sp.toNat v >>= f) = finish s (f (s₁.storeAtSp v)) := by
  rw [State.memWrite_byte]
  rfl

end Sys2Proof.Machine

namespace Sys2Proof

open Machine

/-- The next state of an instruction that does not fault: its writes and its advance. -/
def Instr.effect (i : Instr) (s : State) : State :=
  match i with
  | .ldi opA imm => (s.setReg (regIdx opA) imm).advance 3
  | .prn opA => (s.emit (s.reg (regIdx opA))).advance 2
  | .hlt => { s with runState := .halted }
  | .mul opA opB => (s.setReg (regIdx opA) (alu .mul (s.reg (regIdx opA)) (s.reg (regIdx opB)))).advance 3
  | .add opA opB => (s.setReg (regIdx opA) (alu .add (s.reg (regIdx opA)) (s.reg (regIdx opB)))).advance 3
  | .cmp opA opB => (s.setFl (compareFlags (s.reg (regIdx opA)) (s.reg (regIdx opB)))).advance 3
  | .push opA =>
    let s₁ := s.setSp (s.sp - 1)
    (s₁.storeAtSp (s₁.reg (regIdx opA))).advance 2
  | .pop opA =>
    let s₁ := s.setReg (regIdx opA) (s.mem.read s.sp.toNat)
    (s₁.setSp (s₁.sp + 1)).advance 2
  | .call opA =>
    let s₁ := s.setSp (s.sp - 1)
    (s₁.storeAtSp (returnAddress s.pc 2)).jumpTo (s₁.reg (regIdx opA))
  | .ret => (s.setSp (s.sp + 1)).jumpTo (s.mem.read s.sp.toNat)
  | .jmp opA => s.jumpTo (s.reg (regIdx opA))
  | .jeq opA => { s with pc := if s.equalFlag then (s.reg (regIdx opA)).setWidth 9 else s.pc + 2 }
  | .jne opA => { s with pc := if s.equalFlag then s.pc + 2 else (s.reg (regIdx opA)).setWidth 9 }

variable {i : Instr} {s s' : State} {a b : Byte}

/-! ## The spec's fault list, by the number of register operands -/

theorem Instr.handlerFault_of_zero (h : i.regOperands = []) (s : State) : i.handlerFault s = i.stackFault s := by
  simp [Instr.handlerFault, h]

theorem Instr.handlerFault_of_one (h : i.regOperands = [a]) (s : State) :
    i.handlerFault s = if a.toNat < 8 then i.stackFault s else some (.invalidRegister a) := by
  by_cases ha : a.toNat < 8
  · simp [Instr.handlerFault, h, ha]
  · simp [Instr.handlerFault, h, ha, Nat.not_lt.mp ha]

theorem Instr.handlerFault_of_two (h : i.regOperands = [a, b]) (s : State) :
    i.handlerFault s =
      if a.toNat < 8 then if b.toNat < 8 then i.stackFault s else some (.invalidRegister b)
      else some (.invalidRegister a) := by
  by_cases ha : a.toNat < 8
  · by_cases hb : b.toNat < 8
    · simp [Instr.handlerFault, h, ha, hb]
    · simp [Instr.handlerFault, h, ha, hb, Nat.not_lt.mp hb]
  · simp [Instr.handlerFault, h, ha, Nat.not_lt.mp ha]

theorem Instr.handlerFault_congr (h : i.stackFault s' = i.stackFault s) : i.handlerFault s' = i.handlerFault s := by
  simp only [Instr.handlerFault, h]

/-- An instruction that does not fault names only registers that exist. -/
theorem Instr.lt_of_handlerFault_eq_none (h : i.handlerFault s = none) : ∀ b ∈ i.regOperands, b.toNat < 8 := by
  unfold Instr.handlerFault at h
  split at h
  · cases h
  · next hnone => simpa using hnone

end Sys2Proof

namespace Sys2Proof.Machine

/-- `SP` after a write to a register: the new value exactly if the register is R7 (43_stack.md R152). -/
theorem State.sp_setReg_regIdx {opA : Byte} (h : opA.toNat < 8) (s : State) (v : Byte) :
    (s.setReg (regIdx opA) v).sp = if opA = 7 then v else s.sp := by
  split
  · next h7 => subst h7; exact State.reg_setReg_same s 7 v
  · next h7 => exact State.reg_setReg_ne s v (regIdx_ne h (r := 7) (Ne.symm h7))

/-- Every instruction raises what the spec's list names, and otherwise ends in its effect. -/
theorem exec_eq (i : Instr) (s : State) : exec i s = .next ((i.handlerFault s).elim (i.effect s) s.raise) := by
  cases i with
  | hlt => rfl
  | ldi | prn | jmp =>
    rw [Instr.handlerFault_of_one rfl]
    simp only [exec, execLdi, execPrn, execJmp, finish_regOperand_bind, finish_inc_eq_advance, Instr.size_ldi,
      Instr.size_prn, State.advance_zero, Instr.stackFault]
    split_ifs <;> rfl
  | jeq | jne =>
    rw [Instr.handlerFault_of_one rfl]
    simp only [exec, execJeq, execJne, finish_regOperand_bind, apply_ite (finish s), finish_inc_eq_advance,
      Instr.size_jeq, Instr.size_jne, State.advance_zero, Instr.stackFault, Instr.effect]
    split_ifs <;> rfl
  | mul | add | cmp =>
    rw [Instr.handlerFault_of_two rfl]
    simp only [exec, execMul, execAdd, execCmp, finish_regOperand_bind, finish_inc_eq_advance, Instr.size_mul,
      Instr.size_add, Instr.size_cmp, Instr.stackFault]
    split_ifs <;> rfl
  | push | call =>
    rw [Instr.handlerFault_of_one rfl]
    simp only [exec, execPush, execCall, finish_regOperand_bind, finish_decSp_bind, finish_memWrite_sp_bind,
      finish_inc_eq_advance, Instr.size_push, Instr.size_call, State.advance_zero, Instr.stackFault]
    split_ifs <;> rfl
  | pop =>
    rw [Instr.handlerFault_of_one rfl]
    simp only [exec, execPop, finish_regOperand_bind, finish_memRead_byte_bind, finish_incSp_bind,
      finish_inc_eq_advance, Instr.size_pop, Instr.stackFault, Instr.effect]
    split
    · next h =>
      rw [State.sp_setReg_regIdx h]
      split_ifs <;> rfl
    · rfl
  | ret =>
    rw [Instr.handlerFault_of_zero rfl]
    simp only [exec, execRet, finish_memRead_byte_bind, finish_incSp_bind, finish_inc_eq_advance,
      State.advance_zero, Instr.stackFault]
    split_ifs <;> rfl

end Sys2Proof.Machine

/-! ## One instruction: it raises the listed fault, or its effect is the next state -/

namespace Sys2Proof.Machine

variable {i : Instr} {s s' t : State}

theorem exec_cases (h : exec i s = .next t) :
    (∃ k, i.handlerFault s = some k ∧ t = s.raise k) ∨ (i.handlerFault s = none ∧ t = i.effect s) := by
  rw [exec_eq] at h
  cases hf : i.handlerFault s with
  | some k =>
    rw [hf] at h
    exact .inl ⟨k, rfl, (Host.Outcome.next.inj h).symm⟩
  | none =>
    rw [hf] at h
    exact .inr ⟨rfl, (Host.Outcome.next.inj h).symm⟩

/-- Two states with the same fault go to states related as their raises and their effects are. -/
theorem exec_related {R : State → State → Prop} (hfault : i.handlerFault s' = i.handlerFault s)
    (hraise : ∀ k, R (s'.raise k) (s.raise k)) (heffect : i.handlerFault s = none → R (i.effect s') (i.effect s))
    (h : exec i s = .next t) : ∃ t', exec i s' = .next t' ∧ R t' t := by
  refine ⟨_, exec_eq i s', ?_⟩
  rw [hfault]
  obtain ⟨k, hf, rfl⟩ | ⟨hf, rfl⟩ := exec_cases h
  · rw [hf]
    exact hraise k
  · rw [hf]
    exact heffect hf

end Sys2Proof.Machine

/-! ## What an effect leaves unchanged, field by field -/

namespace Sys2Proof

open Machine

variable (i : Instr) (s : State)

@[simp] theorem Instr.effect_fault : (i.effect s).fault = s.fault := by
  cases i <;> rfl

theorem Instr.effect_runState_cases : (i.effect s).runState = s.runState ∨ (i.effect s).runState = .halted := by
  cases i with
  | hlt => exact .inr rfl
  | _ => exact .inl rfl

/-- Only CMP writes `FL` (10_state.md R26). -/
theorem Instr.effect_fl_cases :
    (i.effect s).fl = s.fl ∨ ∃ opA opB, i = .cmp opA opB ∧
      (i.effect s).fl = compareFlags (s.reg (regIdx opA)) (s.reg (regIdx opB)) := by
  cases i with
  | cmp opA opB => exact .inr ⟨opA, opB, rfl, rfl⟩
  | _ => exact .inl rfl

/-- Only PUSH and CALL write memory, at the new `SP` (20_memory.md R56). -/
theorem Instr.effect_mem_cases :
    (i.effect s).mem = s.mem ∨
    ((∃ opA, i = .push opA ∨ i = .call opA) ∧ ∃ v, (i.effect s).mem = s.mem.write (s.sp - 1).toNat v) := by
  cases i with
  | push opA => exact .inr ⟨⟨opA, .inl rfl⟩, _, s.storeAtSp_setSp_mem _ _⟩
  | call opA => exact .inr ⟨⟨opA, .inr rfl⟩, _, s.storeAtSp_setSp_mem _ _⟩
  | _ => exact .inl rfl

/-- Only PRN writes `OUT` (10_state.md R34). -/
theorem Instr.effect_out_cases :
    (i.effect s).out = s.out ∨ ∃ opA, i = .prn opA ∧ (i.effect s).out = s.out ++ [s.reg (regIdx opA)] := by
  cases i with
  | prn opA => exact .inr ⟨opA, rfl, rfl⟩
  | _ => exact .inl rfl

variable {i s}

/-- The registers outside the "writes" column of 10_state.md R24. -/
theorem Instr.effect_reg_of_notMem_written {r : RegIdx} (hops : ∀ b ∈ i.regOperands, b.toNat < 8)
    (hr : BitVec.ofNat 8 r.val ∉ i.written) : (i.effect s).reg r = s.reg r := by
  cases i with
  | prn | hlt | cmp | jmp | jeq | jne => rfl
  | ldi opA | mul opA | add opA =>
    exact State.reg_setReg_ne _ _ (regIdx_ne (hops opA (.head _)) (List.ne_of_not_mem_cons hr))
  | push | call | ret =>
    exact State.reg_setReg_ne _ _ (regIdx_ne (b := 7) (by decide) (List.ne_of_not_mem_cons hr))
  | pop opA =>
    obtain ⟨hA, hrest⟩ := List.ne_and_not_mem_of_not_mem_cons hr
    calc ((Instr.pop opA).effect s).reg r
      _ = (s.setReg (regIdx opA) _).reg r :=
        State.reg_setReg_ne _ _ (regIdx_ne (b := 7) (by decide) (List.ne_of_not_mem_cons hrest))
      _ = s.reg r := State.reg_setReg_ne _ _ (regIdx_ne (hops opA (.head _)) hA)

end Sys2Proof

/-! ## The invariant of reachable states (10_state.md R25, R27, R30, R32, R42) -/

namespace Sys2Proof

open Machine

variable {i : Instr} {s : State} {k : FaultCause}

theorem Instr.possible_of_stackFault (h : i.stackFault s = some k) : k.possible = true := by
  cases i with
  | push | call | ret =>
    simp only [Instr.stackFault, Option.ite_none_right_eq_some] at h
    cases h.2
    rfl
  | pop =>
    simp only [Instr.stackFault] at h
    split at h <;> simp only [Option.ite_none_right_eq_some] at h <;> cases h.2 <;> rfl
  | _ => cases h

/-- What a handler raises is a cause that can occur (60_exceptions.md R180 to R184). -/
theorem Instr.possible_of_handlerFault (h : i.handlerFault s = some k) : k.possible = true := by
  unfold Instr.handlerFault at h
  split at h
  · next b hb =>
    cases h
    exact List.find?_some (p := fun b : Byte => decide (8 ≤ b.toNat)) hb
  · exact Instr.possible_of_stackFault h

theorem legalOpcode_eq_false_of_decode_eq_error {op opA opB : Byte} {e : DecodeError}
    (h : decode op opA opB = .error e) : legalOpcode op = false := by
  have hnone := (decode_eq_error_iff op opA opB).mp ⟨e, h⟩
  simpa [legalOpcode] using hnone

end Sys2Proof

namespace Sys2Proof.Machine

variable {i : Instr} {s t : State} {k : FaultCause}

theorem fetch_eq_ok_iff {op opA opB : Byte} :
    fetch s = .ok (op, opA, opB) ↔ s.pc.toNat ≤ 253 ∧
      s.mem.read s.pc.toNat = op ∧ s.mem.read (s.pc.toNat + 1) = opA ∧ s.mem.read (s.pc.toNat + 2) = opB := by
  rw [fetch_eq]
  split <;> simp [*]

/-- In the range of `pc` a fetch can only name address 256 (40_dispatch_cycle.md R111). -/
theorem eq_outOfBoundsAccess_of_fetch_eq_error (hpc : s.pc.toNat ≤ 256) (h : fetch s = .error k) :
    k = .outOfBoundsAccess 256 := by
  rw [fetch_eq] at h
  split at h
  · cases h
  · cases h
    exact congrArg _ (by omega)

theorem advance_pc_toNat_le (hpc : s.pc.toNat ≤ 253) {n : Nat} (hn : n ≤ 3) : (s.advance n).pc.toNat ≤ 256 := by
  simp only [State.advance, BitVec.toNat_add, BitVec.toNat_ofNat]
  omega

theorem jumpTo_pc_toNat_le (s : State) (b : Byte) : (s.jumpTo b).pc.toNat ≤ 256 := by
  have := b.isLt
  simp only [State.jumpTo_pc, BitVec.toNat_setWidth]
  omega

/-- From a `pc` an instruction can be fetched at, no effect leaves 0..256 (10_state.md R30). -/
theorem effect_pc_toNat_le (hpc : s.pc.toNat ≤ 253) (i : Instr) : (i.effect s).pc.toNat ≤ 256 := by
  cases i with
  | hlt => exact hpc.trans (by decide)
  | ldi | mul | add | cmp => exact advance_pc_toNat_le hpc (n := 3) le_rfl
  | prn | push | pop => exact advance_pc_toNat_le hpc (n := 2) (by decide)
  | call | ret | jmp => exact jumpTo_pc_toNat_le _ _
  | jeq =>
    simp only [Instr.effect]
    split
    · exact jumpTo_pc_toNat_le s _
    · exact advance_pc_toNat_le hpc (n := 2) (by decide)
  | jne =>
    simp only [Instr.effect]
    split
    · exact advance_pc_toNat_le hpc (n := 2) (by decide)
    · exact jumpTo_pc_toNat_le s _

theorem effect_mem_wf (h : s.mem.wf = true) (i : Instr) : (i.effect s).mem.wf = true := by
  obtain hmem | ⟨-, v, hmem⟩ := i.effect_mem_cases s
  · rwa [hmem]
  · rw [hmem]
    exact Memory.wf_write v h (s.sp - 1).isLt

/-- The comparator sets exactly one of the bits `E`, `G`, `L` (10_state.md R25). -/
theorem compareFlags_eq_one_or_two_or_four (p q : Byte) :
    compareFlags p q = 1 ∨ compareFlags p q = 2 ∨ compareFlags p q = 4 := by
  obtain ⟨-, h⟩ | ⟨-, h⟩ | ⟨-, h⟩ := compareFlags_cases p q
  · exact .inl h
  · exact .inr (.inl h)
  · exact .inr (.inr h)

theorem effect_fl_eq_or (i : Instr) (s : State) :
    (i.effect s).fl = s.fl ∨ (i.effect s).fl = 1 ∨ (i.effect s).fl = 2 ∨ (i.effect s).fl = 4 := by
  obtain hfl | ⟨_, _, -, hfl⟩ := i.effect_fl_cases s
  · exact .inl hfl
  · rw [hfl]
    exact .inr (compareFlags_eq_one_or_two_or_four _ _)

theorem State.Inv.raise (hs : s.Inv) (hk : k.possible = true) : (s.raise k).Inv where
  memCanonical := hs.memCanonical
  pcInRange := hs.pcInRange
  flLegal := hs.flLegal
  faultIffFaulted := by simp
  faultRecord := by
    rintro f ⟨⟩
    exact ⟨rfl, hk⟩

theorem State.Inv.fault_eq_none_iff (hs : s.Inv) : s.fault = none ↔ s.runState ≠ .faulted := by
  rw [Ne, ← hs.faultIffFaulted, Option.not_isSome_iff_eq_none]

theorem State.Inv.effect (hs : s.Inv) (hrun : s.runState = .running) (hpc : s.pc.toNat ≤ 253) (i : Instr) :
    (i.effect s).Inv := by
  have hfault : s.fault = none := hs.fault_eq_none_iff.mpr (by simp [hrun])
  have hnot : (i.effect s).runState ≠ .faulted := by
    obtain h | h := i.effect_runState_cases s <;> simp [h, hrun]
  exact {
    memCanonical := effect_mem_wf hs.memCanonical i
    pcInRange := effect_pc_toNat_le hpc i
    flLegal := by
      obtain hfl | hfl := effect_fl_eq_or i s
      · exact hfl ▸ hs.flLegal
      · exact .inr hfl
    faultIffFaulted := by simp [hfault, hnot]
    faultRecord := by simp [hfault] }

/-- Settles O41: a step raises a cause that can occur, or runs an effect from a `pc` of at most 253; both keep the
invariant. -/
theorem stepKeepsInvariant : Obligations.StepKeepsInvariant := by
  intro s t hs hstep
  obtain ⟨hrun, ⟨k, hf, rfl⟩ | ⟨op, _, _, hf, ⟨e, hd, rfl⟩ | ⟨i, -, hexec⟩⟩⟩ := step_cases hstep
  · exact hs.raise (eq_outOfBoundsAccess_of_fetch_eq_error hs.pcInRange hf ▸ rfl)
  · exact hs.raise (by simp [FaultCause.possible, legalOpcode_eq_false_of_decode_eq_error hd])
  · obtain ⟨k, hk, rfl⟩ | ⟨-, rfl⟩ := exec_cases hexec
    · exact hs.raise (Instr.possible_of_handlerFault hk)
    · exact hs.effect hrun (fetch_eq_ok_iff.mp hf).1 i

/-- Settles O35: the registers by their eight values, the other fields by the definition of reset. -/
theorem resetValues : Obligations.ResetValues :=
  ⟨by decide, rfl, rfl, rfl, rfl, fun _ => rfl, rfl⟩

/-- Settles O39: the reset memory lists no cell, and no fault is recorded. -/
theorem resetMeetsInvariant : Obligations.ResetMeetsInvariant where
  memCanonical := reset_mem_wf
  pcInRange := by decide
  flLegal := .inl rfl
  faultIffFaulted := by decide
  faultRecord := nofun

/-- Settles O40: an image that fits is loaded into the reset memory, and a longer one is refused with
OutOfBoundsAccess(256). -/
theorem launchMeetsInvariant : Obligations.LaunchMeetsInvariant := by
  intro image
  unfold State.launch State.load
  split
  · next hlen =>
    exact { resetMeetsInvariant with memCanonical := Memory.wf_load reset_mem_wf (by simpa [Config.loadBase] using hlen) }
  · exact resetMeetsInvariant.raise (k := .outOfBoundsAccess 256) rfl

theorem Reachable.inv {image : List Byte} (h : Reachable image s) : s.Inv :=
  h.induction (launchMeetsInvariant image) stepKeepsInvariant

theorem FaultCause.possible_iff :
    k.possible = true ↔
      (∃ op, k = .invalidInstruction op ∧ legalOpcode op = false) ∨
      k = .outOfBoundsAccess (-1) ∨ k = .outOfBoundsAccess 256 ∨ ∃ b, k = .invalidRegister b ∧ 8 ≤ b.toNat := by
  cases k <;> simp [FaultCause.possible]

/-- Settles O42: the invariant holds at the launch and every step keeps it, so it holds of every reachable state. -/
theorem reachableValuesAsStated : Obligations.ReachableValuesAsStated := by
  intro image s hreach
  have hs := hreach.inv
  exact ⟨hs.pcInRange, hs.flLegal, hs.fault_eq_none_iff, fun f hf =>
    (hs.faultRecord f hf).imp_right FaultCause.possible_iff.mp⟩

/-! ## RUNSTATE and FL along a step -/

theorem step_eq_exec_of_decode (hrun : s.runState = .running) (hpc : s.pc.toNat ≤ 253)
    (hd : decode (s.mem.read s.pc.toNat) (s.mem.read (s.pc.toNat + 1)) (s.mem.read (s.pc.toNat + 2)) = .ok i) :
    step s = exec i s := by
  simp [step, hrun, fetch_eq, hpc, hd]

/-- Settles O13: a raise ends FAULTED and every other effect but HLT's stays RUNNING. -/
theorem haltedExactlyByHlt : Obligations.HaltedExactlyByHlt := by
  intro s t hstep
  obtain ⟨hrun, hcases⟩ := step_cases hstep
  refine ⟨hrun, fun ht => ?_, fun ⟨hpc, hd⟩ => ?_⟩
  · obtain ⟨k, -, rfl⟩ | ⟨op, opA, opB, hf, ⟨_, -, rfl⟩ | ⟨i, hd, hexec⟩⟩ := hcases
    · cases ht
    · cases ht
    · obtain ⟨k, rfl⟩ | ⟨rfl, -⟩ | ⟨-, hkeep, -⟩ := exec_runState_cases hexec
      · cases ht
      · obtain ⟨hpc, rfl, rfl, rfl⟩ := fetch_eq_ok_iff.mp hf
        exact ⟨hpc, hd⟩
      · rw [hkeep, hrun] at ht
        cases ht
  · cases (step_eq_exec_of_decode hrun hpc hd).symm.trans hstep
    rfl

/-- Settles O33, by the three things an instruction can do to RUNSTATE and FAULT. -/
theorem runStateChangedOnlyByRaiseAndHlt : Obligations.RunStateChangedOnlyByRaiseAndHlt :=
  fun _ _ _ hexec => exec_runState_cases hexec

theorem exec_fl_eq_or (h : exec i s = .next t) : t.fl = s.fl ∨ t.fl = 1 ∨ t.fl = 2 ∨ t.fl = 4 := by
  obtain ⟨k, -, rfl⟩ | ⟨-, rfl⟩ := exec_cases h
  · exact .inl rfl
  · exact effect_fl_eq_or i s

theorem step_fl_eq_or (h : step s = .next t) : t.fl = s.fl ∨ t.fl = 1 ∨ t.fl = 2 ∨ t.fl = 4 := by
  obtain ⟨-, ⟨k, -, rfl⟩ | ⟨op, _, _, -, ⟨_, -, rfl⟩ | ⟨i, -, hexec⟩⟩⟩ := step_cases h
  · exact .inl rfl
  · exact .inl rfl
  · exact exec_fl_eq_or hexec

/-- Each bit of the comparator's byte says how the values compare (10_state.md R25, 42_alu_compare.md R143). -/
theorem compareFlags_bits (p q : Byte) :
    ((compareFlags p q).getLsbD 0 = true ↔ p.toNat = q.toNat) ∧
    ((compareFlags p q).getLsbD 1 = true ↔ p.toNat > q.toNat) ∧
    ((compareFlags p q).getLsbD 2 = true ↔ p.toNat < q.toNat) := by
  obtain ⟨rfl, h⟩ | ⟨hlt, h⟩ | ⟨hlt, h⟩ := compareFlags_cases p q
  · simp [h, flEqual]
  · simp [h, flGreater, hlt, hlt.ne', hlt.le]
  · simp [h, flLess, hlt, hlt.ne, hlt.le]

theorem exec_cmp_fl {opA opB : Byte} (hA : opA.toNat < 8) (hB : opB.toNat < 8) (h : exec (.cmp opA opB) s = .next t) :
    t.fl = compareFlags s.regs[opA.toNat] s.regs[opB.toNat] := by
  have hnone : (Instr.cmp opA opB).handlerFault s = none := by
    rw [Instr.handlerFault_of_two rfl, if_pos hA, if_pos hB]
    rfl
  obtain ⟨k, hf, -⟩ | ⟨-, rfl⟩ := exec_cases h
  · cases hnone.symm.trans hf
  · change compareFlags (s.reg (regIdx opA)) (s.reg (regIdx opB)) = _
    rw [regIdx_of_lt hA, regIdx_of_lt hB]
    rfl

/-- Settles O43: CMP writes the comparator's byte, and no other instruction writes `FL`. -/
theorem exactlyOneFlagAfterCompare : Obligations.ExactlyOneFlagAfterCompare := by
  refine ⟨fun opA opB s t hA hB hexec => ?_, fun s t hstep hs => ?_⟩
  · rw [exec_cmp_fl hA hB hexec]
    exact ⟨compareFlags_eq_one_or_two_or_four _ _, compareFlags_bits _ _⟩
  · obtain hfl | hfl := step_fl_eq_or hstep
    · exact hfl ▸ hs
    · exact hfl

end Sys2Proof.Machine

/-! ## Canonical memories (the model's representation of 10_state.md R33) -/

namespace Sys2Proof.Machine

theorem Memory.wfFrom_cons_iff {lo a : Nat} {v : Byte} {m : Memory} :
    Memory.wfFrom lo ((a, v) :: m) = true ↔
      lo ≤ a ∧ a < Config.memSize ∧ v ≠ Config.memFill ∧ m.wfFrom (a + 1) = true := by
  simp [Memory.wfFrom, and_assoc]

theorem Memory.read_cons_same (a : Nat) (v : Byte) (m : Memory) : Memory.read ((a, v) :: m) a = v := by
  simp [Memory.read]

theorem Memory.read_cons_ne {a b : Nat} (h : a ≠ b) (v : Byte) (m : Memory) :
    Memory.read ((a, v) :: m) b = m.read b := by
  simp [Memory.read, h]

/-- A canonical list with a cell at `a` begins at or below `a`: below its first address it reads as the fill. -/
theorem Memory.exists_cons_of_read_ne_fill {lo a : Nat} {m : Memory} (h : m.wfFrom lo = true)
    (ha : m.read a ≠ Config.memFill) : ∃ b v m', m = (b, v) :: m' ∧ b ≤ a := by
  cases m with
  | nil => exact absurd rfl ha
  | cons c m =>
    obtain ⟨b, v⟩ := c
    obtain ⟨-, hb, hv, hm⟩ := Memory.wfFrom_cons_iff.mp h
    refine ⟨b, v, m, rfl, Nat.le_of_not_lt fun hab => ha ?_⟩
    exact Memory.read_of_lt (Memory.wfFrom_cons_iff.mpr ⟨le_rfl, hb, hv, hm⟩) hab

theorem Memory.eq_of_read_eq {m m' : Memory} {lo : Nat} (h : m.wfFrom lo = true) (h' : m'.wfFrom lo = true)
    (hread : ∀ a, m.read a = m'.read a) : m = m' := by
  induction m generalizing m' lo with
  | nil =>
    cases m' with
    | nil => rfl
    | cons c m' =>
      obtain ⟨a, v⟩ := c
      obtain ⟨-, -, hv, -⟩ := Memory.wfFrom_cons_iff.mp h'
      exact absurd ((Memory.read_cons_same a v m').symm.trans (hread a).symm) hv
  | cons c m ih =>
    obtain ⟨a, v⟩ := c
    obtain ⟨-, -, hv, hm⟩ := Memory.wfFrom_cons_iff.mp h
    have hva : Memory.read m' a = v := (hread a).symm.trans (Memory.read_cons_same a v m)
    obtain ⟨b, w, m', rfl, hba⟩ := Memory.exists_cons_of_read_ne_fill h' (hva ▸ hv)
    obtain ⟨-, -, hw, hm'⟩ := Memory.wfFrom_cons_iff.mp h'
    have hwb : Memory.read ((a, v) :: m) b = w := (hread b).trans (Memory.read_cons_same b w m')
    obtain ⟨_, _, _, heq, hab⟩ := Memory.exists_cons_of_read_ne_fill h (hwb ▸ hw)
    cases heq
    obtain rfl : a = b := Nat.le_antisymm hab hba
    obtain rfl : v = w := (Memory.read_cons_same a v m).symm.trans hwb
    have htail : m = m' := ih hm hm' fun j => by
      by_cases hj : a = j
      · subst hj
        rw [Memory.read_of_lt hm (Nat.lt_succ_self a), Memory.read_of_lt hm' (Nat.lt_succ_self a)]
      · rw [← Memory.read_cons_ne hj v m, hread j, Memory.read_cons_ne hj v m']
    rw [htail]

/-- Settles O44, by induction on the lists: their heads are the first address that does not read as the fill. -/
theorem canonicalMemoriesReadingAlikeAreEqual : Obligations.CanonicalMemoriesReadingAlikeAreEqual :=
  fun _ _ => Memory.eq_of_read_eq

end Sys2Proof.Machine

/-! ## What an effect reads: noninterference in FL, memory, OUT and one register -/

namespace Sys2Proof

open Machine

variable {i : Instr} {s : State}

/-- JEQ and JNE read bit 0 of `FL`; no other instruction reads `FL` (10_state.md R26). -/
theorem Instr.effect_withFl (f : Byte)
    (hf : f.getLsbD 0 = s.fl.getLsbD 0 ∨ ((∀ opA, i ≠ .jeq opA) ∧ ∀ opA, i ≠ .jne opA)) :
    { i.effect { s with fl := f } with fl := (i.effect s).fl } = i.effect s := by
  cases i with
  | jeq opA =>
    have hbit : ({ s with fl := f } : State).equalFlag = s.equalFlag := hf.resolve_right fun h => h.1 opA rfl
    simp only [Instr.effect, hbit]
    rfl
  | jne opA =>
    have hbit : ({ s with fl := f } : State).equalFlag = s.equalFlag := hf.resolve_right fun h => h.2 opA rfl
    simp only [Instr.effect, hbit]
    rfl
  | _ => rfl

/-- POP and RET read the byte at `SP`; no other instruction reads memory as data (20_memory.md R56). -/
theorem Instr.effect_withMem (m : Memory)
    (hm : m.read s.sp.toNat = s.mem.read s.sp.toNat ∨ ((∀ opA, i ≠ .pop opA) ∧ i ≠ .ret)) :
    { i.effect { s with mem := m } with mem := (i.effect s).mem } = i.effect s := by
  cases i with
  | pop opA =>
    have hcell := hm.resolve_right fun h => h.1 opA rfl
    change _ = ((s.setReg (regIdx opA) (s.mem.read s.sp.toNat)).setSp _).advance 2
    rw [← hcell]
    rfl
  | ret =>
    have hcell := hm.resolve_right fun h => h.2 rfl
    change _ = (s.setSp (s.sp + 1)).jumpTo (s.mem.read s.sp.toNat)
    rw [← hcell]
    rfl
  | _ => rfl

theorem Instr.stackFault_withMem (m : Memory)
    (hm : m.read s.sp.toNat = s.mem.read s.sp.toNat ∨ ((∀ opA, i ≠ .pop opA) ∧ i ≠ .ret)) :
    i.stackFault { s with mem := m } = i.stackFault s := by
  cases i with
  | pop opA =>
    have hcell := hm.resolve_right fun h => h.1 opA rfl
    change (if opA = 7 then if m.read s.sp.toNat = 255 then _ else _ else _) = _
    rw [hcell]
    rfl
  | _ => rfl

theorem Instr.effect_withOut (i : Instr) (s : State) (o : List Byte) :
    { i.effect { s with out := o } with out := (i.effect s).out } = i.effect s := by
  cases i <;> rfl

end Sys2Proof

namespace Sys2Proof.Machine

variable {s : State} {r a : RegIdx} {v : Byte}

theorem State.setReg_equalFlag (s : State) (r : RegIdx) (v : Byte) : (s.setReg r v).equalFlag = s.equalFlag := rfl

theorem State.setReg_setReg_same (s : State) (r : RegIdx) (v w : Byte) :
    (s.setReg r v).setReg r w = s.setReg r w := by
  simp [State.setReg]

theorem State.setReg_comm (s : State) (v w : Byte) (h : r ≠ a) :
    (s.setReg r v).setReg a w = (s.setReg a w).setReg r v := by
  simp [State.setReg, Vector.set_comm _ _ (Fin.val_ne_of_ne h)]

theorem State.sp_setReg_ne (s : State) (v : Byte) (h : r ≠ 7) : (s.setReg r v).sp = s.sp :=
  State.reg_setReg_ne s v h

theorem State.setSp_setReg (s : State) (v w : Byte) (h : r ≠ 7) :
    (s.setReg r v).setSp w = (s.setSp w).setReg r v :=
  State.setReg_comm s v w h

theorem State.storeAtSp_setReg (s : State) (v w : Byte) (h : r ≠ 7) :
    (s.setReg r v).storeAtSp w = (s.storeAtSp w).setReg r v := by
  unfold State.storeAtSp
  rw [State.sp_setReg_ne s v h]
  rfl

end Sys2Proof.Machine

namespace Sys2Proof

open Machine

variable {i : Instr} {s : State} {r : RegIdx}

theorem Instr.stackFault_setReg {e : Bool} (v : Byte) (hr : BitVec.ofNat 8 r.val ∉ i.readRegs e) :
    i.stackFault (s.setReg r v) = i.stackFault s := by
  cases i with
  | push | call | pop | ret =>
    have h7 : r ≠ 7 := (regIdx_ne (b := 7) (by decide) (List.ne_of_not_mem_cons hr)).symm
    simp only [Instr.stackFault, State.sp_setReg_ne s v h7, State.setReg_mem]
  | _ => rfl

end Sys2Proof

namespace Sys2Proof

open Machine

variable {i : Instr} {s : State} {r : RegIdx}

/-- A register outside the "reads" column of 10_state.md R24 passes through the effect, or the effect overwrites it. -/
theorem Instr.effect_setReg (v : Byte) (hops : ∀ b ∈ i.regOperands, b.toNat < 8)
    (hr : BitVec.ofNat 8 r.val ∉ i.readRegs s.equalFlag) :
    i.effect (s.setReg r v) = i.effect s ∨ i.effect (s.setReg r v) = (i.effect s).setReg r v := by
  have ne (b : Byte) (hb : b.toNat < 8) (hmem : b ∈ i.readRegs s.equalFlag) : r ≠ regIdx b :=
    (regIdx_ne hb fun h => hr (h ▸ hmem)).symm
  cases i with
  | hlt => exact .inr rfl
  | ldi opA imm =>
    by_cases h : r = regIdx opA
    · subst h
      exact .inl (congrArg (·.advance 3) (State.setReg_setReg_same s _ v imm))
    · exact .inr (congrArg (·.advance 3) (State.setReg_comm s v imm h))
  | prn opA | jmp opA =>
    have hA := ne opA (hops opA (.head _)) (.head _)
    simp only [Instr.effect, State.reg_setReg_ne s v hA]
    exact .inr rfl
  | mul opA opB | add opA opB | cmp opA opB =>
    have hA := ne opA (hops opA (.head _)) (.head _)
    have hB := ne opB (hops opB (.tail _ (.head _))) (.tail _ (.head _))
    simp only [Instr.effect, State.reg_setReg_ne s v hA, State.reg_setReg_ne s v hB, State.setReg_comm s v _ hA]
    exact .inr rfl
  | push opA | call opA =>
    have h7 : r ≠ 7 := ne 7 (by decide) (.head _)
    have hA := ne opA (hops opA (.head _)) (.tail _ (.head _))
    simp only [Instr.effect, State.sp_setReg_ne s v h7, State.setSp_setReg s v _ h7, State.storeAtSp_setReg _ v _ h7,
      State.reg_setReg_ne _ v hA]
    exact .inr rfl
  | pop opA =>
    have h7 : r ≠ 7 := ne 7 (by decide) (.head _)
    simp only [Instr.effect, State.sp_setReg_ne s v h7, State.setReg_mem]
    by_cases hA : r = regIdx opA
    · subst hA
      rw [State.setReg_setReg_same]
      exact .inl rfl
    · rw [State.setReg_comm s v _ hA, State.sp_setReg_ne _ v h7, State.setSp_setReg _ v _ h7]
      exact .inr rfl
  | ret =>
    have h7 : r ≠ 7 := ne 7 (by decide) (.head _)
    simp only [Instr.effect, State.sp_setReg_ne s v h7, State.setSp_setReg s v _ h7]
    exact .inr rfl
  | jeq opA =>
    right
    by_cases he : s.equalFlag = true
    · have hA := ne opA (hops opA (.head _)) (by simp [Instr.readRegs, he])
      simp only [Instr.effect, State.reg_setReg_ne s v hA]
      rfl
    · simp only [Instr.effect, State.setReg_equalFlag, he]
      rfl
  | jne opA =>
    right
    by_cases he : s.equalFlag = true
    · simp only [Instr.effect, State.setReg_equalFlag, he]
      rfl
    · have hA := ne opA (hops opA (.head _)) (by simp [Instr.readRegs, he])
      simp only [Instr.effect, State.reg_setReg_ne s v hA]
      rfl

end Sys2Proof

/-! ## The statements about one instruction's frame and reads -/

namespace Sys2Proof.Machine

variable {i : Instr} {s t : State} {r : RegIdx}

theorem exec_reg_of_notMem_written (h : exec i s = .next t) (hr : BitVec.ofNat 8 r.val ∉ i.written) :
    t.reg r = s.reg r := by
  obtain ⟨k, -, rfl⟩ | ⟨hf, rfl⟩ := exec_cases h
  · rfl
  · exact Instr.effect_reg_of_notMem_written (Instr.lt_of_handlerFault_eq_none hf) hr

/-- A register that is not read keeps the value it is given or ends as it would have. -/
theorem exec_setReg (v : Byte) (h : exec i s = .next t) (hr : BitVec.ofNat 8 r.val ∉ i.readRegs s.equalFlag) :
    ∃ t', exec i (s.setReg r v) = .next t' ∧ (t' = t ∨ t' = t.setReg r v) :=
  exec_related (R := fun t' t => t' = t ∨ t' = t.setReg r v) (Instr.handlerFault_congr (Instr.stackFault_setReg v hr))
    (fun _ => .inr rfl) (fun hf => Instr.effect_setReg v (Instr.lt_of_handlerFault_eq_none hf) hr) h

/-- Settles O28: an unread register passes through the instruction or is overwritten by it. -/
theorem registersUsedAsTable : Obligations.RegistersUsedAsTable := by
  refine ⟨fun i s t r => exec_reg_of_notMem_written, fun i s t r v hexec hr => ?_⟩
  obtain ⟨t', hexec', rfl | rfl⟩ := exec_setReg v hexec hr
  · exact ⟨t', hexec', rfl, fun _ _ => rfl, .inl rfl⟩
  · exact ⟨_, hexec', rfl, fun j hj => State.reg_setReg_ne t v hj.symm, .inr (State.reg_setReg_same t r v)⟩

/-- Settles O29, by what an effect does to `FL` and how it commutes with another `FL`; no fault depends on `FL`. -/
theorem flagsWrittenByCmpReadByConditionalJumps : Obligations.FlagsWrittenByCmpReadByConditionalJumps := by
  refine ⟨fun i s t hexec hcmp => ?_, fun i s t f hexec hf => ?_⟩
  · obtain ⟨k, -, rfl⟩ | ⟨-, rfl⟩ := exec_cases hexec
    · rfl
    · exact (i.effect_fl_cases s).resolve_right fun ⟨opA, opB, h, _⟩ => hcmp opA opB h
  · exact exec_related (R := fun t' t => { t' with fl := t.fl } = t) (Instr.handlerFault_congr (by cases i <;> rfl))
      (fun _ => rfl) (fun _ => Instr.effect_withFl f hf) hexec

/-- Settles O30: an effect's memory is the old one, or for PUSH and CALL one write at the new `SP`. -/
theorem memoryWrittenOnlyByPushAndCall : Obligations.MemoryWrittenOnlyByPushAndCall := by
  intro i s t a hexec ha
  obtain ⟨k, -, rfl⟩ | ⟨-, rfl⟩ := exec_cases hexec
  · rfl
  obtain hmem | ⟨⟨opA, hi⟩, v, hmem⟩ := i.effect_mem_cases s
  · rw [hmem]
  · rw [hmem]
    refine Memory.read_write_ne _ v (ha.resolve_left fun h => ?_)
    exact hi.elim (h.1 opA) (h.2 opA)

/-- Settles O31: fault and effect agree on two memories that agree at `SP`, or always if neither POP nor RET. -/
theorem memoryReadAsDataOnlyByPopAndRet : Obligations.MemoryReadAsDataOnlyByPopAndRet := by
  intro i s t m hexec hm
  exact exec_related (R := fun t' t => { t' with mem := t.mem } = t)
    (Instr.handlerFault_congr (Instr.stackFault_withMem m hm)) (fun _ => rfl) (fun _ => Instr.effect_withMem m hm) hexec

/-- Settles O32: a PRN that does not fault names a register; no fault and no effect depends on `OUT`. -/
theorem outputGrowsOnlyByPrn : Obligations.OutputGrowsOnlyByPrn := by
  refine ⟨fun i s t hexec => ?_, fun i s t o hexec => ?_⟩
  · obtain ⟨k, -, rfl⟩ | ⟨hf, rfl⟩ := exec_cases hexec
    · exact .inl rfl
    obtain hout | ⟨opA, rfl, hout⟩ := i.effect_out_cases s
    · exact .inl hout
    · have hA : opA.toNat < 8 := Instr.lt_of_handlerFault_eq_none hf opA (.head _)
      exact .inr ⟨opA, hA, rfl, by rw [hout, regIdx_of_lt hA]; rfl⟩
  · exact exec_related (R := fun t' t => { t' with out := t.out } = t) (Instr.handlerFault_congr (by cases i <;> rfl))
      (fun _ => rfl) (fun _ => i.effect_withOut s o) hexec

end Sys2Proof.Machine

/-! ## The load, and the byte a PUSH leaves in memory (20_memory.md R57, R64, R66) -/

namespace Sys2Proof.Machine

variable {s t : State} {image : List Byte} {opA : Byte}

theorem State.load_of_le (h : image.length ≤ Config.memSize) (s : State) :
    s.load image = { s with mem := s.mem.load Config.loadBase image } :=
  if_pos h

theorem State.load_of_gt (h : Config.memSize < image.length) (s : State) :
    s.load image = { s with runState := .faulted, fault := some ⟨.outOfBoundsAccess 256, 0⟩ } :=
  if_neg (Nat.not_le.mpr h)

/-- Settles O37: an image that fits lies at its addresses and leaves the cells past its end, and a longer one is
refused. -/
theorem loadPlacesImageOrRefuses : Obligations.LoadPlacesImageOrRefuses := by
  refine ⟨fun s image hwf hlen => ?_, fun s image hlen => State.load_of_gt hlen s⟩
  have hfit : Config.loadBase + image.length ≤ Config.memSize := (Nat.zero_add _).trans_le hlen
  rw [State.load_of_le hlen]
  refine ⟨fun j hj => ?_, fun a ha => ?_, rfl⟩
  · calc (s.mem.load Config.loadBase image).read j
      _ = (s.mem.load Config.loadBase image).read (Config.loadBase + j) := by rw [Config.loadBase, Nat.zero_add]
      _ = image[j] := Memory.read_load_inside hwf hfit hj
  · exact Memory.read_load_outside (.inr ((Nat.zero_add _).trans_le ha))

/-- PUSH of a register that exists raises only at `SP` = 0 (43_stack.md R150, R151). -/
theorem handlerFault_push_eq_none (hA : opA.toNat < 8) (hsp : s.sp ≠ 0) : (Instr.push opA).handlerFault s = none := by
  rw [Instr.handlerFault_of_one rfl, if_pos hA]
  exact if_neg hsp

/-- The cell at the decremented `SP` holds what the pushed register holds after PUSH, R7 included
(43_stack.md R151). -/
theorem read_effect_push (h : s.mem.wf = true) (opA : Byte) :
    ((Instr.push opA).effect s).mem.read (s.sp - 1).toNat = ((Instr.push opA).effect s).reg (regIdx opA) := by
  have hmem : ((Instr.push opA).effect s).mem =
      s.mem.write (s.sp - 1).toNat ((s.setSp (s.sp - 1)).reg (regIdx opA)) := State.storeAtSp_setSp_mem s _ _
  rw [hmem]
  exact Memory.read_write_same _ h

/-- Settles O48: the PUSH ends in its effect, whose cell at `SP - 1` the fetch reads first. -/
theorem fetchSeesPushedByte : Obligations.FetchSeesPushedByte := by
  intro opA s t p hA hwf hsp hexec hp hp253
  obtain ⟨k, hfault, -⟩ | ⟨-, rfl⟩ := exec_cases hexec
  · cases (handlerFault_push_eq_none hA hsp).symm.trans hfault
  · have hbyte := read_effect_push hwf opA
    rw [← hp, regIdx_of_lt hA] at hbyte
    exact ⟨_, _, fetch_eq_ok_iff.mpr ⟨hp253, hbyte, rfl, rfl⟩⟩

end Sys2Proof.Machine

/-! ## The decoder and the encoder invert each other (30_encoding.md R82, R88, R95, R96) -/

namespace Sys2Proof

open Machine

variable {op opA opB : Byte} {i : Instr}

theorem legalOpcode_iff : legalOpcode op = true ↔ ∃ row ∈ opcodeTable, row.opcode = op := by
  simp [legalOpcode]

/-- Bits 7:6 of the opcode byte count the operand bytes (30_encoding.md R82, R89 a). -/
theorem Instr.operandBytes_length_add_one (i : Instr) : i.operandBytes.length + 1 = opcodeSize i.opcode := by
  change i.operandBytes.length + 1 = i.size
  cases i <;> simp [Instr.operandBytes]

/-- An instruction's opcode byte finds its row, which builds it again from its operand bytes and reads no byte past
them (30_encoding.md R87, R96). -/
theorem decode_opcode_operandBytes (i : Instr) (rest : List Byte) :
    decode i.opcode ((i.operandBytes ++ rest).getD 0 0) ((i.operandBytes ++ rest).getD 1 0) = .ok i := by
  cases i <;> rfl

theorem decodeBytes_cons_of_decode {rest : List Byte} (hd : decode op (rest.getD 0 0) (rest.getD 1 0) = .ok i)
    (hlen : opcodeSize op ≤ rest.length + 1) :
    decodeBytes (op :: rest) = .ok (i, rest.drop (opcodeSize op - 1)) := by
  simp only [decodeBytes, hd, if_neg (Nat.not_lt.mpr hlen)]

theorem decodeBytes_encode_append (i : Instr) (rest : List Byte) : decodeBytes (encode i ++ rest) = .ok (i, rest) := by
  have hsize := i.operandBytes_length_add_one
  have hlen : opcodeSize i.opcode ≤ (i.operandBytes ++ rest).length + 1 := by
    rw [← hsize, List.length_append]
    omega
  calc decodeBytes (i.opcode :: (i.operandBytes ++ rest))
    _ = .ok (i, (i.operandBytes ++ rest).drop (opcodeSize i.opcode - 1)) :=
      decodeBytes_cons_of_decode (decode_opcode_operandBytes i rest) hlen
    _ = .ok (i, rest) := by rw [← hsize, Nat.add_sub_cancel, List.drop_left]

/-- Settles O1: the opcode byte finds the row of the instruction, and its size drops exactly the operand bytes. -/
theorem decodeInvertsEncode : Obligations.DecodeInvertsEncode :=
  fun i rest => ⟨decodeBytes_encode_append i rest, decode_opcode_operandBytes i rest⟩

/-- What a row builds is encoded as the row's opcode byte and the operand bytes its size counts
(30_encoding.md R82, R86). -/
theorem encode_build_of_mem_opcodeTable {row : OpcodeRow} (h : row ∈ opcodeTable) (opA opB : Byte) :
    encode (row.build opA opB) = [row.opcode, opA, opB].take (opcodeSize row.opcode) := by
  fin_cases h <;> rfl

theorem encode_eq_take_of_decode (h : decode op opA opB = .ok i) :
    encode i = [op, opA, opB].take (opcodeSize op) := by
  obtain ⟨row, hfind, rfl⟩ := (decode_eq_ok_iff op opA opB i).mp h
  obtain rfl : row.opcode = op := by simpa using List.find?_some hfind
  exact encode_build_of_mem_opcodeTable (List.mem_of_find?_eq_some hfind) opA opB

theorem opcode_eq_of_decode (h : decode op opA opB = .ok i) : i.opcode = op := by
  have hhead := congrArg List.head? (encode_eq_take_of_decode h)
  simpa [encode, opcodeSize] using hhead

/-- Settles O2: the decoded row's opcode byte is `op`, and the encoding is the row's. -/
theorem encodeInvertsDecode : Obligations.EncodeInvertsDecode :=
  fun _ _ _ _ h => ⟨encode_eq_take_of_decode h, congrArg opcodeSize (opcode_eq_of_decode h)⟩

/-- No opcode byte of the table has `cnt` = 0b11 (30_encoding.md R88). -/
theorem cnt_ne_three_of_mem_opcodeTable : ∀ row ∈ opcodeTable, row.opcode.extractLsb' 6 2 ≠ 0b11 := by
  decide

/-- The numbers of the legal opcode bytes are those of the table's rows (30_encoding.md R86, R88). -/
theorem filter_legalOpcode_perm :
    ((List.range 256).filter fun n => legalOpcode (BitVec.ofNat 8 n)).Perm
      (opcodeTable.map fun row => row.opcode.toNat) := by
  refine (List.perm_ext_iff_of_nodup (List.nodup_range.filter _) (by decide)).mpr fun n => ?_
  simp only [List.mem_filter, List.mem_range, legalOpcode_iff, List.mem_map]
  constructor
  · rintro ⟨hn, row, hrow, hop⟩
    exact ⟨row, hrow, by rw [hop, BitVec.toNat_ofNat, Nat.mod_eq_of_lt hn]⟩
  · rintro ⟨row, hrow, rfl⟩
    exact ⟨row.opcode.isLt, row, hrow, by rw [BitVec.ofNat_toNat, BitVec.setWidth_eq]⟩

theorem countP_illegal_eq : (List.range 256).countP (fun n => !legalOpcode (BitVec.ofNat 8 n)) = 243 := by
  have hlegal : (List.range 256).countP (fun n => legalOpcode (BitVec.ofNat 8 n)) = 13 :=
    List.countP_eq_length_filter.trans filter_legalOpcode_perm.length_eq
  have hall := List.length_eq_countP_add_countP (fun n => legalOpcode (BitVec.ofNat 8 n)) (l := List.range 256)
  simp only [List.length_range, hlegal, Bool.not_eq_true, Bool.decide_eq_false] at hall
  omega

/-- Settles O3: the 13 rows have different opcode bytes, none of them with `cnt` = 0b11. -/
theorem illegalOpcodeBytesCounted : Obligations.IllegalOpcodeBytesCounted := by
  refine ⟨countP_illegal_eq, rfl, fun op hcnt => Bool.eq_false_iff.mpr fun hlegal => ?_⟩
  obtain ⟨row, hrow, rfl⟩ := legalOpcode_iff.mp hlegal
  exact cnt_ne_three_of_mem_opcodeTable row hrow hcnt

/-- Settles O4: each word's opcode byte is looked up in the table. -/
theorem specWordsDecode : Obligations.SpecWordsDecode :=
  ⟨rfl, rfl, rfl, rfl, rfl, rfl, rfl, rfl, rfl, rfl, rfl, rfl, rfl⟩

end Sys2Proof

/-! ## InvalidRegister is raised exactly for a register operand byte above 7 (30_encoding.md R84) -/

namespace Sys2Proof

open Machine

variable {i : Instr} {s : State} {b : Byte}

theorem Instr.stackFault_ne_invalidRegister : i.stackFault s ≠ some (.invalidRegister b) := by
  cases i with
  | push | call | pop | ret =>
    simp only [Instr.stackFault]
    split_ifs <;> simp
  | _ => nofun

theorem Instr.handlerFault_eq_invalidRegister_iff :
    i.handlerFault s = some (.invalidRegister b) ↔
      i.regOperands.find? (fun b => decide (8 ≤ b.toNat)) = some b := by
  unfold Instr.handlerFault
  split
  · next hfind => simp [hfind]
  · next hfind => simp [hfind, Instr.stackFault_ne_invalidRegister]

theorem Instr.find?_regOperands_eq_none_of_wf (h : i.wf = true) :
    i.regOperands.find? (fun b => decide (8 ≤ b.toNat)) = none := by
  simp only [Instr.wf, List.all_eq_true, decide_eq_true_eq] at h
  simpa [Nat.lt_succ_iff] using h

/-- Settles O12: the first operand byte above 7 is the fault of the spec's list, which every instruction raises. -/
theorem invalidRegisterOperandFaults : Obligations.InvalidRegisterOperandFaults := by
  intro i b s hfind
  rw [exec_eq, Instr.handlerFault_eq_invalidRegister_iff.mpr hfind]
  rfl

/-- Settles O51: without a byte above 7 the raised fault is another one, and an effect leaves FAULT as it was. -/
theorem wellFormedNeverRaisesInvalidRegister : Obligations.WellFormedNeverRaisesInvalidRegister := by
  intro i s t b p hwf hexec ht
  obtain ⟨k, hfault, rfl⟩ | ⟨-, rfl⟩ := exec_cases hexec
  · cases ht
    cases (Instr.find?_regOperands_eq_none_of_wf hwf).symm.trans (Instr.handlerFault_eq_invalidRegister_iff.mp hfault)
  · rwa [Instr.effect_fault] at ht

end Sys2Proof

/-! ## The step: fetch, decode, execute, each ending in one state (40_dispatch_cycle.md R110 to R120) -/

namespace Sys2Proof.Machine

variable {i : Instr} {s : State}

theorem step_of_halted (h : s.runState = .halted) : step s = .fault .halted := by
  simp [step, h]

theorem step_of_faulted (h : s.runState = .faulted) : step s = .fault .faulted := by
  simp [step, h]

/-- Past 253 one of the three reads is at an address outside memory (40_dispatch_cycle.md R111). -/
theorem step_eq_raise_of_pc_gt (hrun : s.runState = .running) (hpc : 253 < s.pc.toNat) (hpc' : s.pc.toNat ≤ 256) :
    step s = .next (s.raise (.outOfBoundsAccess 256)) := by
  have hmax : max (s.pc.toNat : Int) 256 = 256 := by omega
  simp [step, hrun, fetch_eq, Nat.not_le.mpr hpc, hmax]

theorem step_eq_raise_of_decode_error {e : DecodeError} (hrun : s.runState = .running) (hpc : s.pc.toNat ≤ 253)
    (hd : decode (s.mem.read s.pc.toNat) (s.mem.read (s.pc.toNat + 1)) (s.mem.read (s.pc.toNat + 2)) = .error e) :
    step s = .next (s.raise (.invalidInstruction (s.mem.read s.pc.toNat))) := by
  simp [step, hrun, fetch_eq, hpc, hd]

theorem expectedFault_of_pc_gt (hpc : 253 < s.pc.toNat) : s.expectedFault = some (.outOfBoundsAccess 256) :=
  if_pos hpc

theorem expectedFault_of_decode_error {e : DecodeError} (hpc : s.pc.toNat ≤ 253)
    (hd : decode (s.mem.read s.pc.toNat) (s.mem.read (s.pc.toNat + 1)) (s.mem.read (s.pc.toNat + 2)) = .error e) :
    s.expectedFault = some (.invalidInstruction (s.mem.read s.pc.toNat)) := by
  simp [State.expectedFault, Nat.not_lt.mpr hpc, hd]

theorem expectedFault_of_decode (hpc : s.pc.toNat ≤ 253)
    (hd : decode (s.mem.read s.pc.toNat) (s.mem.read (s.pc.toNat + 1)) (s.mem.read (s.pc.toNat + 2)) = .ok i) :
    s.expectedFault = i.handlerFault s := by
  simp [State.expectedFault, Nat.not_lt.mpr hpc, hd]

theorem step_next_of_running (hrun : s.runState = .running) : ∃ t, step s = .next t := by
  simp only [step, hrun]
  split
  · exact ⟨_, rfl⟩
  · split
    · exact ⟨_, rfl⟩
    · exact exec_next _ s

/-- A raise is the only way to FAULTED: an effect keeps RUNNING or halts. -/
theorem effect_runState_ne_faulted (hrun : s.runState = .running) (i : Instr) : (i.effect s).runState ≠ .faulted := by
  obtain h | h := i.effect_runState_cases s <;> simp [h, hrun]

/-- Settles O5: a RUNNING core's fetch, decode and handler each end in a state, and a step tells that the core ran. -/
theorem stepExistsExactlyWhileRunning : Obligations.StepExistsExactlyWhileRunning :=
  fun _ => ⟨fun ⟨_, hstep⟩ => (step_cases hstep).1, step_next_of_running⟩

/-- Settles O6, by the two terminal values of RUNSTATE. -/
theorem terminalStatesStopByName : Obligations.TerminalStatesStopByName :=
  ⟨fun _ => step_of_halted, fun _ => step_of_faulted⟩

/-- Settles O7: at a `pc` up to 253 the fetch reads the three bytes that decode to the instruction. -/
theorem stepRunsDecodedInstruction : Obligations.StepRunsDecodedInstruction :=
  fun _ _ => step_eq_exec_of_decode

/-- Settles O8: the first address past memory is 256 for each of the three values of `pc`. -/
theorem fetchNearTopFaults : Obligations.FetchNearTopFaults :=
  fun _ => step_eq_raise_of_pc_gt

/-- Settles O11, along the fault list: fetch bounds, opcode, and for a decoded instruction the handler's fault, which
`exec_eq` shows to be the only one. -/
theorem stepFaultsExactlyInPriorityOrder : Obligations.StepFaultsExactlyInPriorityOrder := by
  intro s hrun hpc
  obtain hgt | hle := Nat.lt_or_ge 253 s.pc.toNat
  · rw [expectedFault_of_pc_gt hgt]
    exact ⟨_, step_eq_raise_of_pc_gt hrun hgt hpc, rfl⟩
  · cases hd : decode (s.mem.read s.pc.toNat) (s.mem.read (s.pc.toNat + 1)) (s.mem.read (s.pc.toNat + 2)) with
    | error e =>
      rw [expectedFault_of_decode_error hle hd]
      exact ⟨_, step_eq_raise_of_decode_error hrun hle hd, rfl⟩
    | ok i =>
      rw [expectedFault_of_decode hle hd]
      refine ⟨_, (step_eq_exec_of_decode hrun hle hd).trans (exec_eq i s), ?_⟩
      cases i.handlerFault s with
      | some k => rfl
      | none => exact effect_runState_ne_faulted hrun i

/-- Settles O17: HLT's handler writes nothing and the dispatcher writes RUNSTATE. -/
theorem hltChangesOnlyRunState : Obligations.HltChangesOnlyRunState :=
  fun s => finish_halt s s

/-! ## Where an effect leaves `pc` (40_dispatch_cycle.md R119, 44_control_transfer.md R160) -/

theorem toNat_setWidth_pc (v : Byte) : (v.setWidth 9 : Pc).toNat = v.toNat :=
  BitVec.toNat_setWidth_of_le (by decide)

/-- A register's value as a jump target is the register's value (44_control_transfer.md R160 a). -/
theorem toNat_setWidth_reg_regIdx {b : Byte} (h : b.toNat < 8) (s : State) :
    ((s.reg (regIdx b)).setWidth 9 : Pc).toNat = s.regs[b.toNat].toNat := by
  rw [toNat_setWidth_pc, regIdx_of_lt h]
  rfl

/-- Settles O34: an instruction that does not fault ends in its effect, whose `pc` is its advance or its target, and its
register operand is in range. -/
theorem incrementAsTable : Obligations.IncrementAsTable := by
  intro i s t _ hexec hnot
  obtain ⟨k, -, rfl⟩ | ⟨hnone, rfl⟩ := exec_cases hexec
  · exact absurd rfl hnot
  · have hops := Instr.lt_of_handlerFault_eq_none hnone
    cases i with
    | ldi | prn | hlt | mul | add | cmp | push | pop => rfl
    | ret => exact toNat_setWidth_pc _
    | call opA | jmp opA =>
      have hA : opA.toNat < 8 := hops opA (.head _)
      exact ⟨hA, toNat_setWidth_reg_regIdx hA _⟩
    | jeq opA =>
      have hA : opA.toNat < 8 := hops opA (.head _)
      simp only [Instr.effect, State.equalFlag]
      split
      · next hE => exact ⟨hA, (congrArg BitVec.toNat (if_pos hE)).trans (toNat_setWidth_reg_regIdx hA s)⟩
      · next hE => exact if_neg hE
    | jne opA =>
      have hA : opA.toNat < 8 := hops opA (.head _)
      simp only [Instr.effect, State.equalFlag]
      split
      · next hE => exact if_pos hE
      · next hE => exact ⟨hA, (congrArg BitVec.toNat (if_neg hE)).trans (toNat_setWidth_reg_regIdx hA s)⟩

end Sys2Proof.Machine

/-! ## LDI and PRN: the whole next state (41_load_print_halt.md R130, R131) -/

namespace Sys2Proof.Machine

variable {i : Instr} {s : State} {b : Byte}

theorem exec_eq_effect_of_handlerFault_eq_none (h : i.handlerFault s = none) : exec i s = .next (i.effect s) := by
  rw [exec_eq, h]
  rfl

/-- With one register operand, and that one in range, only the stack pointer can fault (60_exceptions.md R199). -/
theorem exec_eq_effect_of_one (hops : i.regOperands = [b]) (hb : b.toNat < 8) (hstack : i.stackFault s = none) :
    exec i s = .next (i.effect s) :=
  exec_eq_effect_of_handlerFault_eq_none (by rw [Instr.handlerFault_of_one hops, if_pos hb, hstack])

/-- With one register operand, a byte above 7 is the first bad one (30_encoding.md R84). -/
theorem exec_eq_faultedWith_of_one (hops : i.regOperands = [b]) (hb : 8 ≤ b.toNat) :
    exec i s = .next (s.faultedWith (.invalidRegister b)) :=
  invalidRegisterOperandFaults i b s (by simp [hops, hb])

/-- Settles O15: LDI's effect writes the register the byte names, and a byte that names none is the instruction's only
fault. -/
theorem ldiLoadsImmediate : Obligations.LdiLoadsImmediate := by
  refine ⟨fun opA imm s hA => ?_, fun opA imm s hA => exec_eq_faultedWith_of_one rfl hA⟩
  calc exec (.ldi opA imm) s
    _ = .next ((s.setReg (regIdx opA) imm).advance 3) := exec_eq_effect_of_one rfl hA rfl
    _ = .next ((s.setReg ⟨opA.toNat, hA⟩ imm).advance 3) := by rw [regIdx_of_lt hA]

/-- Settles O16: PRN's effect emits the register the byte names, and a byte that names none is the instruction's only
fault. -/
theorem prnEmitsRegister : Obligations.PrnEmitsRegister := by
  refine ⟨fun opA s hA => ?_, fun opA s hA => exec_eq_faultedWith_of_one rfl hA⟩
  calc exec (.prn opA) s
    _ = .next ((s.emit (s.reg (regIdx opA))).advance 2) := exec_eq_effect_of_one rfl hA rfl
    _ = .next ((s.emit (s.reg ⟨opA.toNat, hA⟩)).advance 2) := by rw [regIdx_of_lt hA]

end Sys2Proof.Machine

/-! ## MUL, ADD and CMP: the whole next state (42_alu_compare.md R140 to R145) -/

namespace Sys2Proof.Machine

variable {i : Instr} {s : State} {a b : Byte}

theorem exec_eq_effect_of_two (hops : i.regOperands = [a, b]) (ha : a.toNat < 8) (hb : b.toNat < 8)
    (hstack : i.stackFault s = none) : exec i s = .next (i.effect s) :=
  exec_eq_effect_of_handlerFault_eq_none (by rw [Instr.handlerFault_of_two hops, if_pos ha, if_pos hb, hstack])

/-- A bad operand A is the first bad byte, whatever operand B is (60_exceptions.md R188). -/
theorem exec_eq_faultedWith_of_two_left (hops : i.regOperands = [a, b]) (ha : 8 ≤ a.toNat) :
    exec i s = .next (s.faultedWith (.invalidRegister a)) :=
  invalidRegisterOperandFaults i a s (by simp [hops, ha])

/-- A bad operand B is the first bad byte when operand A names a register (60_exceptions.md R188). -/
theorem exec_eq_faultedWith_of_two_right (hops : i.regOperands = [a, b]) (ha : a.toNat < 8) (hb : 8 ≤ b.toNat) :
    exec i s = .next (s.faultedWith (.invalidRegister b)) :=
  invalidRegisterOperandFaults i b s (by simp [hops, ha, hb])

/-- Settles O50: keeping eight bits of the exact result is taking it modulo 2 ^ 8. -/
theorem aluWrapsModulo256 : Obligations.AluWrapsModulo256 :=
  fun p q => ⟨BitVec.toNat_ofNat (p.toNat + q.toNat) 8, BitVec.toNat_ofNat (p.toNat * q.toNat) 8⟩

theorem alu_mul_eq (p q : Byte) : alu .mul p q = BitVec.ofNat 8 (p.toNat * q.toNat % 256) := by
  rw [← (aluWrapsModulo256 p q).2, BitVec.ofNat_toNat, BitVec.setWidth_eq]

theorem alu_add_eq (p q : Byte) : alu .add p q = BitVec.ofNat 8 ((p.toNat + q.toNat) % 256) := by
  rw [← (aluWrapsModulo256 p q).1, BitVec.ofNat_toNat, BitVec.setWidth_eq]

/-- The comparator's byte, with equality of the bytes themselves in its first test (42_alu_compare.md R143). -/
theorem compareFlags_eq (p q : Byte) :
    compareFlags p q = if p = q then 0b001 else if p.toNat > q.toNat then 0b010 else 0b100 := by
  obtain ⟨rfl, h⟩ | ⟨hgt, h⟩ | ⟨hlt, h⟩ := compareFlags_cases p q
  · rw [h, if_pos rfl, flEqual]
  · have hne : p ≠ q := fun heq => hgt.ne' (congrArg BitVec.toNat heq)
    rw [h, if_neg hne, if_pos hgt, flGreater]
  · have hne : p ≠ q := fun heq => hlt.ne (congrArg BitVec.toNat heq)
    rw [h, if_neg hne, if_neg hlt.le.not_gt, flLess]

/-- Settles O18: MUL's effect writes the ALU's product to register A, and the first byte that names no register is its
only fault. -/
theorem mulKeepsLowEightBits : Obligations.MulKeepsLowEightBits := by
  refine ⟨fun opA opB s hA hB => ?_, fun _ _ _ => exec_eq_faultedWith_of_two_left rfl,
    fun _ _ _ => exec_eq_faultedWith_of_two_right rfl⟩
  calc exec (.mul opA opB) s
    _ = .next ((s.setReg (regIdx opA) (alu .mul (s.reg (regIdx opA)) (s.reg (regIdx opB)))).advance 3) :=
      exec_eq_effect_of_two rfl hA hB rfl
    _ = .next ((s.setReg ⟨opA.toNat, hA⟩ (BitVec.ofNat 8
          ((s.reg ⟨opA.toNat, hA⟩).toNat * (s.reg ⟨opB.toNat, hB⟩).toNat % 256))).advance 3) := by
      rw [regIdx_of_lt hA, regIdx_of_lt hB, alu_mul_eq]

/-- Settles O19: ADD's effect writes the ALU's sum to register A, and the first byte that names no register is its only
fault. -/
theorem addKeepsLowEightBits : Obligations.AddKeepsLowEightBits := by
  refine ⟨fun opA opB s hA hB => ?_, fun _ _ _ => exec_eq_faultedWith_of_two_left rfl,
    fun _ _ _ => exec_eq_faultedWith_of_two_right rfl⟩
  calc exec (.add opA opB) s
    _ = .next ((s.setReg (regIdx opA) (alu .add (s.reg (regIdx opA)) (s.reg (regIdx opB)))).advance 3) :=
      exec_eq_effect_of_two rfl hA hB rfl
    _ = .next ((s.setReg ⟨opA.toNat, hA⟩ (BitVec.ofNat 8
          (((s.reg ⟨opA.toNat, hA⟩).toNat + (s.reg ⟨opB.toNat, hB⟩).toNat) % 256))).advance 3) := by
      rw [regIdx_of_lt hA, regIdx_of_lt hB, alu_add_eq]

/-- Settles O20: CMP's effect writes the comparator's byte to `FL`, and the first byte that names no register is its only
fault. -/
theorem cmpWritesComparison : Obligations.CmpWritesComparison := by
  refine ⟨fun opA opB s hA hB => ?_, fun _ _ _ => exec_eq_faultedWith_of_two_left rfl,
    fun _ _ _ => exec_eq_faultedWith_of_two_right rfl⟩
  calc exec (.cmp opA opB) s
    _ = .next ((s.setFl (compareFlags (s.reg (regIdx opA)) (s.reg (regIdx opB)))).advance 3) :=
      exec_eq_effect_of_two rfl hA hB rfl
    _ = .next ((s.setFl (compareFlags (s.reg ⟨opA.toNat, hA⟩) (s.reg ⟨opB.toNat, hB⟩))).advance 3) := by
      rw [regIdx_of_lt hA, regIdx_of_lt hB]
    _ = _ := by
      rw [compareFlags_eq]
      rfl

end Sys2Proof.Machine

/-! ## UnsupportedALUOperation is raised by nothing (42_alu_compare.md R146, 60_exceptions.md R184) -/

namespace Sys2Proof.Machine

variable {s t : State} {k : FaultCause}

theorem exists_outOfBoundsAccess_of_fetch_eq_error (h : fetch s = .error k) : ∃ addr, k = .outOfBoundsAccess addr := by
  rw [fetch_eq] at h
  split at h
  · cases h
  · exact ⟨_, (Except.error.inj h).symm⟩

/-- A step raises a cause of the fetch, the decoder or a handler, none of them UnsupportedALUOperation, or leaves `FAULT`
alone (60_exceptions.md R184). -/
theorem step_fault_cases (h : step s = .next t) :
    (∃ k, k ≠ .unsupportedAluOperation ∧ t = s.raise k) ∨ t.fault = s.fault := by
  obtain ⟨-, ⟨k, hf, rfl⟩ | ⟨op, _, _, -, ⟨_, -, rfl⟩ | ⟨i, -, hexec⟩⟩⟩ := step_cases h
  · obtain ⟨addr, rfl⟩ := exists_outOfBoundsAccess_of_fetch_eq_error hf
    exact .inl ⟨.outOfBoundsAccess addr, nofun, rfl⟩
  · exact .inl ⟨.invalidInstruction op, nofun, rfl⟩
  · obtain ⟨k, hk, rfl⟩ | ⟨-, rfl⟩ := exec_cases hexec
    · refine .inl ⟨k, ?_, rfl⟩
      rintro rfl
      cases Instr.possible_of_handlerFault hk
    · exact .inr (i.effect_fault s)

/-- Settles O14: a step raises another cause or leaves `FAULT` as it was. -/
theorem unsupportedAluNeverRaised : Obligations.UnsupportedAluNeverRaised := by
  intro s t p hstep hs
  obtain ⟨k, hk, rfl⟩ | hkeep := step_fault_cases hstep
  · rintro ⟨⟩
    exact hk rfl
  · rwa [hkeep]

end Sys2Proof.Machine

/-! ## PUSH and POP: the whole next state, and one after the other (43_stack.md R150 to R152) -/

namespace Sys2Proof.Machine

variable {i : Instr} {s : State} {b opA : Byte} {k : FaultCause}

/-- With one register operand, and that one in range, the stack-pointer fault is raised (60_exceptions.md R199). -/
theorem exec_eq_faultedWith_of_one_of_stackFault (hops : i.regOperands = [b]) (hb : b.toNat < 8)
    (hstack : i.stackFault s = some k) : exec i s = .next (s.faultedWith k) := by
  rw [exec_eq, Instr.handlerFault_of_one hops, if_pos hb, hstack]
  rfl

/-- Settles O21: PUSH's effect writes R7 and one cell, which holds what the operand register holds afterwards; its
faults are the operand's and the one at `SP` = 0. -/
theorem pushStoresAtDecrementedSp : Obligations.PushStoresAtDecrementedSp := by
  refine ⟨fun opA s hA hwf hsp => ?_,
    fun _ _ hA hsp => exec_eq_faultedWith_of_one_of_stackFault rfl hA (if_pos hsp),
    fun _ _ hA => exec_eq_faultedWith_of_one rfl hA⟩
  have hexec : exec (.push opA) s = .next ((Instr.push opA).effect s) :=
    exec_eq_effect_of_one rfl hA (if_neg hsp)
  refine ⟨_, hexec, rfl, rfl, fun a => ?_, rfl, rfl, rfl, rfl⟩
  split
  · next ha =>
    rw [ha, read_effect_push hwf opA, regIdx_of_lt hA]
    rfl
  · next ha => exact memoryWrittenOnlyByPushAndCall _ _ _ _ hexec (.inr ha)

/-- The write to a register other than R7 leaves the `SP` that POP increments (43_stack.md R152). -/
theorem effect_pop_of_ne_seven (hA : opA.toNat < 8) (h7 : opA ≠ 7) (s : State) :
    (Instr.pop opA).effect s =
      ((s.setReg ⟨opA.toNat, hA⟩ (s.mem.read s.sp.toNat)).setSp (s.sp + 1)).advance 2 := by
  have hsp : (s.setReg (regIdx opA) (s.mem.read s.sp.toNat)).sp = s.sp :=
    (State.sp_setReg_regIdx hA s _).trans (if_neg h7)
  simp only [← regIdx_of_lt hA, Instr.effect, hsp]

/-- POP R7 increments the loaded byte, and that is the only write to R7 that stays (43_stack.md R152). -/
theorem effect_pop_seven (s : State) :
    (Instr.pop 7).effect s = (s.setSp (s.mem.read s.sp.toNat + 1)).advance 2 := by
  calc (Instr.pop 7).effect s
    _ = ((s.setSp (s.mem.read s.sp.toNat)).setSp ((s.setSp (s.mem.read s.sp.toNat)).sp + 1)).advance 2 := rfl
    _ = (s.setSp (s.mem.read s.sp.toNat + 1)).advance 2 := by
      rw [State.sp_setSp]
      exact congrArg (·.advance 2) (State.setReg_setReg_same s 7 _ _)

/-- Settles O22: POP's effect for R7 and for another register; its faults are the operand's and the one of the `SP` it
would increment, which for R7 is the loaded byte. -/
theorem popLoadsFromSp : Obligations.PopLoadsFromSp := by
  refine ⟨fun opA s hA h7 hsp => ?_, fun s hv => ?_, fun opA s hA h7 hsp => ?_, fun s hv => ?_,
    fun _ _ hA => exec_eq_faultedWith_of_one rfl hA⟩
  · have hstack : (Instr.pop opA).stackFault s = none := (if_neg h7).trans (if_neg hsp)
    rw [exec_eq_effect_of_one rfl hA hstack, effect_pop_of_ne_seven hA h7]
    rfl
  · have hstack : (Instr.pop 7).stackFault s = none := if_neg hv
    rw [exec_eq_effect_of_one rfl (by decide) hstack, effect_pop_seven]
    rfl
  · exact exec_eq_faultedWith_of_one_of_stackFault rfl hA ((if_neg h7).trans (if_pos hsp))
  · exact exec_eq_faultedWith_of_one_of_stackFault rfl (by decide) (if_pos hv)

theorem regs_set_seven_sp (s : State) : s.regs.set 7 s.sp = s.regs :=
  Vector.set_getElem_self (by decide)

/-- Settles O45: POP reads the cell PUSH wrote and sets R7 back to the `SP` before. -/
theorem pushThenPopIsInverse : Obligations.PushThenPopIsInverse := by
  intro r r' s hr hr' hwf hsp
  obtain ⟨t, hpush, hregs, hpc, hread, -⟩ := pushStoresAtDecrementedSp.1 r s (by omega) hwf hsp
  have htsp : t.sp = s.sp - 1 := (congrArg (·[7]) hregs).trans (Vector.getElem_set_self (by decide))
  have htop : t.sp ≠ 255 := by bv_omega
  have hr7 : r' ≠ 7 := by bv_omega
  have hpop := popLoadsFromSp.1 r' t (by omega) hr7 htop
  have hback : t.sp + 1 = s.sp := by rw [htsp, BitVec.sub_add_cancel]
  have hbyte : t.mem.read t.sp.toNat = s.regs[r.toNat] := by
    rw [htsp, hread, if_pos rfl]
    simp only [hregs]
    exact Vector.getElem_set_ne _ _ (by omega)
  have huregs : (t.regs.set r'.toNat (t.mem.read t.sp.toNat)).set 7 (t.sp + 1) =
      s.regs.set r'.toNat s.regs[r.toNat] := by
    rw [hback, hbyte, hregs, Vector.set_comm _ _ hr'.ne, Vector.set_set, regs_set_seven_sp]
  refine ⟨t, _, hpush, hpop, huregs, ?_, ?_⟩
  · exact (Vector.getElem_set_self (by decide)).trans hback
  · change t.pc + 2 = s.pc + 4
    rw [hpc, BitVec.add_assoc]
    rfl

end Sys2Proof.Machine

/-! ## CALL, RET, JMP, JEQ and JNE: the whole next state (44_control_transfer.md R160 to R165) -/

namespace Sys2Proof.Machine

variable {s t : State} {opA opB : Byte}

/-- A byte as a jump target is the byte (44_control_transfer.md R160 a). -/
theorem toNat_ofNat_toNat_pc (v : Byte) : (BitVec.ofNat 9 v.toNat : Pc).toNat = v.toNat := by
  rw [BitVec.ofNat_toNat, toNat_setWidth_pc]

/-- A register's value as a jump target, zero-extended (44_control_transfer.md R160 a). -/
theorem setWidth_reg_regIdx (hA : opA.toNat < 8) (s : State) :
    ((s.reg (regIdx opA)).setWidth 9 : Pc) = BitVec.ofNat 9 s.regs[opA.toNat].toNat :=
  BitVec.eq_of_toNat_eq ((toNat_setWidth_reg_regIdx hA s).trans (toNat_ofNat_toNat_pc _).symm)

/-- Settles O25: JMP's effect sets `pc` to the register the byte names, and a byte that names none is its only fault. -/
theorem jmpJumpsToRegister : Obligations.JmpJumpsToRegister := by
  refine ⟨fun opA s hA => ?_, fun _ _ hA => exec_eq_faultedWith_of_one rfl hA⟩
  calc exec (.jmp opA) s
    _ = .next { s with pc := (s.reg (regIdx opA)).setWidth 9 } := exec_eq_effect_of_one rfl hA rfl
    _ = .next { s with pc := BitVec.ofNat 9 s.regs[opA.toNat].toNat } := by rw [setWidth_reg_regIdx hA]

/-- Settles O26: JEQ's effect chooses `pc` by the bit `E`, and its operand is checked before that choice. -/
theorem jeqJumpsIfEqualFlag : Obligations.JeqJumpsIfEqualFlag := by
  refine ⟨fun opA s hA => ?_, fun _ _ hA => exec_eq_faultedWith_of_one rfl hA⟩
  rw [← setWidth_reg_regIdx hA]
  exact exec_eq_effect_of_one rfl hA rfl

/-- Settles O27: JNE's effect chooses `pc` by the bit `E` with the branches of JEQ exchanged, and its operand is checked
before that choice. -/
theorem jneJumpsIfEqualFlagClear : Obligations.JneJumpsIfEqualFlagClear := by
  refine ⟨fun opA s hA => ?_, fun _ _ hA => exec_eq_faultedWith_of_one rfl hA⟩
  simp only [← setWidth_reg_regIdx hA, ← Bool.not_eq_true, ite_not]
  exact exec_eq_effect_of_one rfl hA rfl

/-- Settles O24: RET has no operand to check, so `SP` = 255 is its only fault, and otherwise its effect pops `pc`. -/
theorem retJumpsToPoppedByte : Obligations.RetJumpsToPoppedByte := by
  refine ⟨fun s hsp => ?_, fun s hsp => ?_⟩
  · have hnone : Instr.ret.handlerFault s = none := (Instr.handlerFault_of_zero rfl s).trans (if_neg hsp)
    rw [BitVec.ofNat_toNat]
    exact exec_eq_effect_of_handlerFault_eq_none hnone
  · have hfault : Instr.ret.handlerFault s = some (.outOfBoundsAccess 256) :=
      (Instr.handlerFault_of_zero rfl s).trans (if_pos hsp)
    rw [exec_eq, hfault]
    rfl

/-- Where a CALL can be fetched, the address after it fits a byte (44_control_transfer.md R161). -/
theorem toNat_returnAddress {pc : Pc} (hpc : pc.toNat ≤ 253) : (returnAddress pc 2).toNat = pc.toNat + 2 :=
  Nat.mod_eq_of_lt (show pc.toNat + 2 < 2 ^ 8 by omega)

/-- The cell at the decremented `SP` holds the return address after CALL (44_control_transfer.md R161). -/
theorem read_effect_call (hwf : s.mem.wf = true) (opA : Byte) :
    ((Instr.call opA).effect s).mem.read (s.sp - 1).toNat = returnAddress s.pc 2 := by
  have hmem : ((Instr.call opA).effect s).mem = s.mem.write (s.sp - 1).toNat (returnAddress s.pc 2) :=
    State.storeAtSp_setSp_mem s _ _
  rw [hmem]
  exact Memory.read_write_same _ hwf

/-- Settles O23: CALL's effect writes R7, the cell it then points at and `pc`; its faults are the operand's and the one
at `SP` = 0. -/
theorem callPushesReturnAddress : Obligations.CallPushesReturnAddress := by
  refine ⟨fun opA s hA hwf hpc hsp => ?_,
    fun _ _ hA hsp => exec_eq_faultedWith_of_one_of_stackFault rfl hA (if_pos hsp),
    fun _ _ hA => exec_eq_faultedWith_of_one rfl hA⟩
  have hexec : exec (.call opA) s = .next ((Instr.call opA).effect s) :=
    exec_eq_effect_of_one rfl hA (if_neg hsp)
  refine ⟨_, hexec, rfl, toNat_setWidth_reg_regIdx hA _, ?_, fun a ha => ?_, rfl, rfl, rfl, rfl⟩
  · rw [read_effect_call hwf, toNat_returnAddress hpc]
  · exact memoryWrittenOnlyByPushAndCall _ _ _ _ hexec (.inr ha)

/-! ## One instruction after another: CALL and RET, CMP and a conditional jump, JMP and the next fetch -/

theorem sp_eq_of_regs_eq_set {v : Byte} (h : t.regs = s.regs.set 7 v) : t.sp = v :=
  (congrArg (·[7]) h).trans (Vector.getElem_set_self (by decide))

/-- Settles O46: the byte RET pops is the return address CALL stored, and its increment undoes CALL's decrement. -/
theorem retResumesAfterCall : Obligations.RetResumesAfterCall := by
  intro opA s t u hA hwf hpc hsp hcall husp hubyte
  obtain ⟨t', hcall', hregs, -, hreturn, -⟩ := callPushesReturnAddress.1 opA s hA hwf hpc hsp
  obtain rfl : t' = t := Host.Outcome.next.inj (hcall'.symm.trans hcall)
  have htsp : t'.sp = s.sp - 1 := sp_eq_of_regs_eq_set hregs
  have hutop : u.sp ≠ 255 := by bv_omega
  refine ⟨_, retJumpsToPoppedByte.1 u hutop, ?_, ?_⟩
  · rw [toNat_ofNat_toNat_pc, hubyte, htsp, hreturn]
  · calc (u.setSp (u.sp + 1)).sp
      _ = u.sp + 1 := State.sp_setSp u _
      _ = s.sp := by rw [husp, htsp, BitVec.sub_add_cancel]

/-- After CMP the bit `E` tells whether the registers hold the same byte (42_alu_compare.md R143). -/
theorem exec_cmp_equal_iff (hA : opA.toNat < 8) (hB : opB.toNat < 8) (h : exec (.cmp opA opB) s = .next t) :
    t.fl.getLsbD 0 = true ↔ s.regs[opA.toNat] = s.regs[opB.toNat] := by
  rw [exec_cmp_fl hA hB h, (compareFlags_bits _ _).1, BitVec.toNat_inj]

/-- Settles O47: CMP leaves in `E` whether the registers are equal, and JEQ and JNE choose by `E`, 2 bytes on being
5 past the CMP. -/
theorem conditionalJumpsFollowCompare : Obligations.ConditionalJumpsFollowCompare := by
  intro opA opB opC s hA hB hC
  have hcmp : exec (.cmp opA opB) s = .next ((Instr.cmp opA opB).effect s) := exec_eq_effect_of_two rfl hA hB rfl
  have hE := exec_cmp_equal_iff hA hB hcmp
  have hpc : ((Instr.cmp opA opB).effect s).pc + 2 = s.pc + 5 := BitVec.add_assoc s.pc 3 2
  refine ⟨_, hcmp, ?_, ?_⟩
  · rw [jeqJumpsIfEqualFlag.1 opC _ hC]
    simp only [hE, hpc]
    rfl
  · rw [jneJumpsIfEqualFlagClear.1 opC _ hC]
    simp only [← Bool.not_eq_true, hE, ite_not, hpc]
    rfl

/-- Settles O49: JMP checks nothing of its target, and a fetch above 253 faults. -/
theorem jumpNearTopFaultsAtNextFetch : Obligations.JumpNearTopFaultsAtNextFetch := by
  intro opA s hA hrun htop
  have hpc : (BitVec.ofNat 9 s.regs[opA.toNat].toNat : Pc).toNat = s.regs[opA.toNat].toNat := toNat_ofNat_toNat_pc _
  refine ⟨_, jmpJumpsToRegister.1 opA s hA, hpc, fetchNearTopFaults _ hrun ?_ ?_⟩
  · exact htop.trans_eq hpc.symm
  · exact hpc.trans_le (by omega)

end Sys2Proof.Machine

/-! ## Illegal opcodes and the end of a run (60_exceptions.md R181, R192) -/

namespace Sys2Proof.Machine

/-- The decoder rejects a byte that is the opcode of no row, whatever operand bytes follow (30_encoding.md R82, R88). -/
theorem exists_decode_eq_error_of_legalOpcode_eq_false {op : Byte} (hop : legalOpcode op = false) (opA opB : Byte) :
    ∃ e, decode op opA opB = .error e := by
  rw [decode_eq_error_iff]
  intro row hrow hrow_op
  exact Bool.eq_false_iff.mp hop (legalOpcode_iff.mpr ⟨row, hrow, hrow_op⟩)

/-- Settles O9: the fetch succeeds, and the decoder rejects a byte in no row of the table. -/
theorem illegalOpcodeFaults : Obligations.IllegalOpcodeFaults := by
  intro s hrun hpc hop
  obtain ⟨e, hd⟩ := exists_decode_eq_error_of_legalOpcode_eq_false hop _ _
  exact step_eq_raise_of_decode_error hrun hpc hd

/-- Settles O52: a reachable state keeps the invariant, by which only FAULTED has a record, and HALTED has no step. -/
theorem completedRunHasNoFaultAndNoStep : Obligations.CompletedRunHasNoFaultAndNoStep := by
  intro image s hreach hcompleted
  have hhalted : s.runState = .halted := beq_iff_eq.mp hcompleted
  constructor
  · rw [hreach.inv.fault_eq_none_iff, hhalted]
    nofun
  · rw [step_of_halted hhalted]
    nofun

end Sys2Proof.Machine

/-! ## The stack pointer and the entry point at reset (70_reset_and_hazards.md R211, R213) -/

namespace Sys2Proof.Machine

@[simp] theorem State.sp_resetWith (p : Config.ResetParams) : (State.resetWith p).sp = p.spReset := rfl

/-- Settles O36: R7 after reset is `SP_RESET`, and at `SP` = 0 the fault of PUSH and CALL is the stack pointer's. -/
theorem zeroSpResetMakesFirstPushFault : Obligations.ZeroSpResetMakesFirstPushFault := by
  intro p opA hp hA
  have hsp : (State.resetWith p).sp = 0 := (State.sp_resetWith p).trans hp
  constructor
  · exact exec_eq_faultedWith_of_one_of_stackFault rfl hA (if_pos hsp)
  · exact exec_eq_faultedWith_of_one_of_stackFault rfl hA (if_pos hsp)

/-- The load does not touch `pc`, whether it places the image or refuses it (20_memory.md R66). -/
@[simp] theorem State.load_pc (s : State) (image : List Byte) : (s.load image).pc = s.pc := by
  rcases Nat.lt_or_ge Config.memSize image.length with hlong | hfits
  · rw [State.load_of_gt hlong]
  · rw [State.load_of_le hfits]

theorem State.launch_pc (image : List Byte) : (State.launch image).pc = 0 :=
  State.reset.load_pc image

/-- Settles O38: the load leaves `pc` at its reset value 0, where the fetch's three reads are in bounds. -/
theorem firstFetchReadsAddressZero : Obligations.FirstFetchReadsAddressZero := by
  intro image
  rw [fetch_eq, State.launch_pc]
  exact if_pos (by decide)

end Sys2Proof.Machine
